-- ==== Sys2Proof/Word.lean ====
section
/-! DEFINITION. The word types of the block (00_scope.md R7, R8: every value is unsigned, bit 0 least significant). -/

namespace Sys2Proof

/-- A u8: a stream element, a frame id, a payload byte (R7). -/
abbrev Byte := BitVec 8

/-- A u16: a frame length, a CRC value, a timeout (R7). -/
abbrev Half := BitVec 16

/-- The 32-bit operation word (30_encoding.md R76). -/
abbrev OpWord := BitVec 32

/-- A handler tag (10_state.md R32): `TAG_W` bits, and `TAG_W` is fixed at 16 (00_scope.md R5,
92_eei_decisions.md D13). -/
abbrev Tag := BitVec 16

end Sys2Proof
end

