-- ==== Sys2Proof/Machine/Interface.lean ====
section
/-! DEFINITION. What crosses the block's interface: operations in (30_encoding.md R76 to R79), outputs out (R80 to R82),
and the reasons for which an operation is refused (60_exceptions.md R206). -/

namespace Sys2Proof

/-- One operation as the environment presents it: the 32-bit word and the side operands beside it (R76, R78). -/
structure Op where
  word : OpWord
  payload : List Byte
  space : Option Nat
deriving DecidableEq, Repr

/-- R206's reasons for refusing an operation, but for `ReadOfNoValue`, which is a fault of the model
(`Machine.Fault.readOfNoValue`, log entry 7). -/
inductive RefuseReason where
  /-- `w[31:28]` in 0x0, 0x9 to 0xE (R79). Raised by the decoder. Safe: nothing but the mark changes. -/
  | reservedOpcode
  /-- A defined operation with a non-zero reserved bit (R79). Raised by the decoder. Safe. -/
  | reservedBits
  /-- `ENCODE` with `len(payload) != n` (43_tx_encoder.md R173). Raised by `ENCODE`. Safe. -/
  | payloadLengthMismatch
  /-- `ENCODE` whose `space` operand does not go with `TX_SPACE_CHECK` (R78). Raised by `ENCODE`. Safe. -/
  | spaceOperandMissing
deriving DecidableEq, Repr

namespace Machine

/-- The receive results of R81. Codes 6 and 7 are never emitted: there is no such result. -/
inductive RxCode where
  | awaitingMore
  | frameComplete
  | badLength
  | crcMismatch
  | badStopByte
  | timeout
deriving DecidableEq, Repr

/-- The kinds of link-level error (60_exceptions.md R200, R201). -/
inductive LinkError where
  | badLength
  | crcMismatch
  | badStopByte
  | timeout
deriving DecidableEq, Repr

/-- The encode results of R82. -/
inductive TxCode where
  | success
  | insufficientSpace
deriving DecidableEq, Repr

/-- The `frame` part of `RxOut` (R80). -/
structure Frame where
  id : Byte
  payload : List Byte
deriving DecidableEq, Repr

/-- The `disp` part of `RxOut` (R80, 42_dispatch.md R161). -/
structure Dispatched where
  id : Byte
  tag : Tag
  payload : List Byte
deriving DecidableEq, Repr

/-- The output of a step (R80). -/
inductive Output where
  /-- `RxOut(code, frame, disp)`, emitted by `RX_BYTE` and `TICK`. -/
  | rxOut (code : RxCode) (frame : Option Frame) (disp : Option Dispatched)
  /-- `CrcOut(value)`, emitted by the three CRC operations. -/
  | crcOut (value : Half)
  /-- `TxOut(code, bytes)`, emitted by `ENCODE`. -/
  | txOut (code : TxCode) (bytes : List Byte)
  /-- `Ack`, emitted by `REG_SET`, `CFG_TIMEOUT` and `RESET`. -/
  | ack
deriving DecidableEq, Repr

end Machine

end Sys2Proof
end

