-- ==== Sys2Proof/Syntax.lean ====
section
/-! DEFINITION. The nine operations (00_scope.md R2, 30_encoding.md R77), one constructor per row of the opcode table. -/

namespace Sys2Proof

/-- An operation with its operands (R77, R78). Only `ENCODE` has side operands: its payload, and the space
the sink reported for this call where the environment gives one. -/
inductive Instr where
  /-- `RX_BYTE b`: one received byte fed to the framer (41_rx_framer.md R120). -/
  | rxByte (b : Byte)
  /-- `TICK`: one tick of the time base (41_rx_framer.md R139). -/
  | tick
  /-- `CRC_INIT` (40_crc.md R104). -/
  | crcInit
  /-- `CRC_FEED b` (40_crc.md R105). -/
  | crcFeed (b : Byte)
  /-- `CRC_UPDATE s, b` (40_crc.md R103); the spec's operand `s` is `c` here. -/
  | crcUpdate (c : Half) (b : Byte)
  /-- `ENCODE id, payload [, space]` with `n` the length the word declares (43_tx_encoder.md R170). -/
  | encode (id : Byte) (n : Half) (payload : List Byte) (space : Option Nat)
  /-- `REG_SET id, tag` (42_dispatch.md R160). -/
  | regSet (id : Byte) (tag : Tag)
  /-- `CFG_TIMEOUT t` (44_control.md R180). -/
  | cfgTimeout (t : Half)
  /-- `RESET` (44_control.md R181). -/
  | reset
deriving DecidableEq, Repr

end Sys2Proof
end

