-- ==== Sys2Proof/Decode.lean ====
section
/-! DEFINITION. Decoding an operation word, total over all words (30_encoding.md R76, R77, R79, R85), and the encoder
written from the same table. -/

namespace Sys2Proof

/-- `w[31:28]`, which alone selects the operation (R76). -/
def opcode (w : OpWord) : BitVec 4 := w.extractLsb' 28 4

/-- `i`, if the reserved bits `r` are all 0; else the word is reserved (R79). -/
def ifReservedZero {n : Nat} (r : BitVec n) (i : Instr) : Except RefuseReason Instr :=
  if r = 0 then .ok i else .error .reservedBits

/-- The operation a presented word stands for, or the reason it is refused (R77, R85). The side operands are
those of `ENCODE`; beside any other operation they mean nothing (log entry 11). -/
def decode (op : Op) : Except RefuseReason Instr :=
  let w := op.word
  match (opcode w).toNat with
  | 0x1 => ifReservedZero (w.extractLsb' 8 20) (.rxByte (w.extractLsb' 0 8))
  | 0x2 => ifReservedZero (w.extractLsb' 0 28) .tick
  | 0x3 => ifReservedZero (w.extractLsb' 0 28) .crcInit
  | 0x4 => ifReservedZero (w.extractLsb' 8 20) (.crcFeed (w.extractLsb' 0 8))
  | 0x5 => ifReservedZero (w.extractLsb' 24 4) (.crcUpdate (w.extractLsb' 8 16) (w.extractLsb' 0 8))
  | 0x6 => ifReservedZero (w.extractLsb' 24 4)
      (.encode (w.extractLsb' 16 8) (w.extractLsb' 0 16) op.payload op.space)
  | 0x7 => ifReservedZero (w.extractLsb' 24 4) (.regSet (w.extractLsb' 16 8) (w.extractLsb' 0 16))
  | 0x8 => ifReservedZero (w.extractLsb' 16 12) (.cfgTimeout (w.extractLsb' 0 16))
  | 0xF => ifReservedZero (w.extractLsb' 0 28) .reset
  | _ => .error .reservedOpcode

/-- The operation word of an instruction: the fields of R77 from bit 31 down, reserved bits 0. -/
def encodeWord : Instr → OpWord
  | .rxByte b => 0x1#4 ++ 0#20 ++ b
  | .tick => 0x2#4 ++ 0#28
  | .crcInit => 0x3#4 ++ 0#28
  | .crcFeed b => 0x4#4 ++ 0#20 ++ b
  | .crcUpdate c b => 0x5#4 ++ 0#4 ++ c ++ b
  | .encode id n _ _ => 0x6#4 ++ 0#4 ++ id ++ n
  | .regSet id tag => 0x7#4 ++ 0#4 ++ id ++ tag
  | .cfgTimeout t => 0x8#4 ++ 0#12 ++ t
  | .reset => 0xF#4 ++ 0#28

/-- The operation as it is presented: its word, and `ENCODE`'s side operands beside it (R78). -/
def encode (i : Instr) : Op where
  word := encodeWord i
  payload := match i with
    | .encode _ _ payload _ => payload
    | _ => []
  space := match i with
    | .encode _ _ _ space => space
    | _ => none

/-- A table word of `nbits` bits presented to the block: the word itself, an all-zero payload of the declared
length where it is an `ENCODE`, and the given space operand beside an `ENCODE` (log entry 14). -/
def presentTableWord (nbits w : Nat) (space : Nat → Option Nat) : Op :=
  let word := BitVec.ofNat 32 (w % 2 ^ nbits)
  let n := (word.extractLsb' 0 16).toNat
  match (opcode word).toNat with
  | 0x6 => { word := word, payload := List.replicate n 0, space := space n }
  | _ => { word := word, payload := [], space := none }

/-- What the decoder reads from a word numbered as the opcode table numbers it; none where it refuses. No row
is longer than 32 bits (log entry 15). -/
def decodeTableWord (nbits w : Nat) : Option Instr :=
  (decode (presentTableWord nbits w fun _ => none)).toOption

end Sys2Proof
end

