-- ==== Sys2Proof/Config.lean ====
section
/-! DEFINITION. The implementation parameters of 00_scope.md R5. -/

namespace Sys2Proof

/-- The parameters a model of the block takes, fixed for the life of an instance (R5). Two instances may
differ in them, so each machine state carries its own and every statement about every state holds for every
choice of them (log entry 1). No constraint relates the four markers (92_eei_decisions.md D36). -/
structure Params where
  /-- `START1`, any u8 (D1). -/
  start1 : Byte
  /-- `START2`, any u8 (D1). -/
  start2 : Byte
  /-- `STOP1`, any u8 (D1). -/
  stop1 : Byte
  /-- `STOP2`, any u8 (D1). -/
  stop2 : Byte
  /-- `RX_CAP`, an integer from 0 to 65535 (D2). -/
  rxCap : Fin 65536
  /-- `TIMEOUT_RESET`, an integer from 0 to 65535 (D5). -/
  timeoutReset : Half
  /-- `TICK_PERIOD_MS`, a positive integer (D3); `Params.wf` says positive. -/
  tickPeriodMs : Nat
  /-- `TX_SPACE_CHECK`, a Boolean (D18). -/
  txSpaceCheck : Bool
deriving DecidableEq, Repr

/-- R5's range of `TICK_PERIOD_MS`: a positive integer. The other ranges are in the field types. -/
abbrev Params.wf (p : Params) : Prop := 0 < p.tickPeriodMs

/-- `START1` of this hardware: OPEN in the spec (R5, D1), so a constant with no known value (log entry 1). -/
opaque Config.start1 : Byte

/-- `START2` of this hardware: OPEN (R5, D1; log entry 1). -/
opaque Config.start2 : Byte

/-- `STOP1` of this hardware: OPEN (R5, D1; log entry 1). -/
opaque Config.stop1 : Byte

/-- `STOP2` of this hardware: OPEN (R5, D1; log entry 1). -/
opaque Config.stop2 : Byte

/-- `TICK_PERIOD_MS` of this hardware less one: OPEN (R5, D3; log entry 1). -/
opaque Config.tickPeriodLessOne : Nat

/-- `TX_SPACE_CHECK` of this hardware: OPEN (R5, D18; log entry 1). -/
opaque Config.txSpaceCheck : Bool

/-- The parameters of this hardware: `RX_CAP` is 5120, the reference system's, and `TIMEOUT_RESET` is 300
(R5, R6; log entry 2); the rest are open. -/
def Config.params : Params where
  start1 := Config.start1
  start2 := Config.start2
  stop1 := Config.stop1
  stop2 := Config.stop2
  rxCap := 5120
  timeoutReset := 300
  tickPeriodMs := Config.tickPeriodLessOne + 1
  txSpaceCheck := Config.txSpaceCheck

end Sys2Proof
end

