-- ==== Sys2Proof/Machine/State.lean ====
section
/-! DEFINITION. The state of one instance (10_state.md) and the reasons a step can stop. -/

namespace Sys2Proof.Machine

/-- Why the machine stops with a fault. Neither happens in a state that meets the invariants of 10_state.md R39. -/
inductive Fault where
  /-- A rule reads a cell that holds no value (10_state.md's opening note and R29, 60_exceptions.md R206). Raised by
  `RX_BYTE` in `ReadCrc` and `ReadStop2`. Safe: the machine stops rather than pick a value (log entry 7). -/
  | readOfNoValue
  /-- A buffer access at an index at or above `RX_CAP`, a cell that does not exist (20_memory.md R50). Raised by `RX_BYTE`
  in `ReadData` and `ReadStop2`. Safe (log entry 8). -/
  | bufferIndexOutOfRange
deriving DecidableEq, Repr

/-- Why the model gives an instruction no meaning. No arm of `exec` answers so: the spec's own refusals are
next states with the mark `refused` set (60_exceptions.md R206, log entry 6). -/
inductive Refusal where
  /-- Raised only by an arm of `exec` for an instruction that has no meaning yet; there is none. Safe. -/
  | notModelled (mnemonic : String)
deriving DecidableEq, Repr

/-- DecoderState (10_state.md R22). Values 9 to 15 are never held: they have no name. -/
inductive DecoderState where
  | awaitStart1
  | awaitStart2
  | readId
  | readLenLow
  | readLenHigh
  | readData
  | readCrc
  | readStop1
  | readStop2
deriving DecidableEq, Repr

/-- What a cell or an entry that is not listed reads as: no value (10_state.md R29, R32, R41). -/
def noValue {β : Type} : Option β := none

/-- The canonical form of listed cells: indices strictly rising. No listed cell can read as `noValue`. -/
def rising {β : Type} (m : List (Nat × β)) : Bool := decide (m.Pairwise fun c d => c.1 < d.1)

/-- The cells of the receive buffer that hold a value, by index, in canonical form (`Memory.wf`). A cell not listed
holds no value (10_state.md R29). -/
abbrev Memory := List Host.Cell

/-- The canonical form of the receive buffer's contents. -/
def Memory.wf (m : Memory) : Bool := rising m

/-- The entries of the command registry with `valid = 1`, by frame id, each with its tag, in canonical form
(`Registry.wf`). The table has 256 entries (10_state.md R32, 20_memory.md R51); one not listed has `valid = 0` and a
tag of no value. -/
abbrev Registry := List (Nat × Tag)

/-- The canonical form of the registry, and every listed id one of the 256. -/
def Registry.wf (r : Registry) : Bool := rising r && r.all fun e => e.1 < 256

/-- The state of one decoder instance (10_state.md R40), its parameters, and the model's own `ops`, `outputs` and
`lastRefusal`. -/
structure State where
  /-- The parameters of the instance (00_scope.md R5), which no operation changes (log entry 1). -/
  params : Params
  /-- `rx_state` (R22). -/
  rxState : DecoderState
  /-- `rx_crc_phase` (R23): `false` is 0, the low byte comes next; `true` is 1, the high byte. -/
  rxCrcPhase : Bool
  /-- `rx_id` (R24); `none` is the spec's "no value". -/
  rxId : Option Byte
  /-- `rx_len` (R25). -/
  rxLen : Half
  /-- `rx_idx` (R26). -/
  rxIdx : Half
  /-- `rx_crc` (R27). -/
  rxCrc : Half
  /-- `rx_crc_lo` (R28); `none` is the spec's "no value". -/
  rxCrcLo : Option Byte
  /-- `rx_buf` (R29, 20_memory.md R50). -/
  rxBuf : Memory
  /-- `tmo_elapsed` (R30). -/
  tmoElapsed : Half
  /-- `timeout_ms` (R31). -/
  timeoutMs : Half
  /-- `reg` (R32). -/
  reg : Registry
  /-- `crc_acc` (R33). -/
  crcAcc : Half
  /-- `refused` (R35), the spec's model mark: set by every refusal, cleared by nothing. -/
  refused : Bool
  /-- The model's own: the reason of the most recent refusal (60_exceptions.md R206; log entry 6). -/
  lastRefusal : Option RefuseReason
  /-- The model's own: the outputs emitted so far, oldest first (20_memory.md R52, 30_encoding.md R80; log entry 5). -/
  outputs : List Output
  /-- The model's own: the operations presented and not yet taken, in the environment's order
  (20_memory.md R62 to R64; log entry 3). -/
  ops : List Op
deriving DecidableEq, Repr

/-- The outcomes of a meaning. -/
abbrev Result := Host.Outcome State Fault Refusal

/-- The state at power-on of an instance with parameters `p` (10_state.md R41, 70_reset_and_hazards.md R230). -/
def State.powerOn (p : Params) : State where
  params := p
  rxState := .awaitStart1
  rxCrcPhase := false
  rxId := none
  rxLen := 0
  rxIdx := 0
  rxCrc := 0x0000
  rxCrcLo := none
  rxBuf := []
  tmoElapsed := 0
  timeoutMs := p.timeoutReset
  reg := []
  crcAcc := 0x0000
  refused := false
  lastRefusal := none
  outputs := []
  ops := []

/-- The machine right after reset, with this hardware's parameters. -/
def State.reset : State := State.powerOn Config.params

end Sys2Proof.Machine
end

