-- ==== Sys2Proof/Machine/Flags.lean ====
section
/-! DEFINITION. The block has no flags (10_state.md R36): the status of a step is its output. This file gives the numbers
of the results (30_encoding.md R81, R82) and of the framer states (10_state.md R22). -/

namespace Sys2Proof.Machine

/-- The u3 receive result code (R81). -/
def RxCode.num : RxCode → BitVec 3
  | .awaitingMore => 0
  | .frameComplete => 1
  | .badLength => 2
  | .crcMismatch => 3
  | .badStopByte => 4
  | .timeout => 5

/-- `code(kind)`, the receive result of an error (60_exceptions.md R200). -/
def LinkError.code : LinkError → RxCode
  | .badLength => .badLength
  | .crcMismatch => .crcMismatch
  | .badStopByte => .badStopByte
  | .timeout => .timeout

/-- The u1 encode result code (R82). -/
def TxCode.num : TxCode → BitVec 1
  | .success => 0
  | .insufficientSpace => 1

/-- The 4-bit encoding of `rx_state` (10_state.md R22). No output carries it. -/
def DecoderState.num : DecoderState → BitVec 4
  | .awaitStart1 => 0
  | .awaitStart2 => 1
  | .readId => 2
  | .readLenLow => 3
  | .readLenHigh => 4
  | .readData => 5
  | .readCrc => 6
  | .readStop1 => 7
  | .readStop2 => 8

end Sys2Proof.Machine
end

