-- ==== Sys2Proof/Machine/Operands.lean ====
section
/-! DEFINITION. Operand forms: multi-byte fields on the wire (20_memory.md R53, 30_encoding.md R71, R72), the frame's
layout (R70), and `ENCODE`'s side operands (R78, 60_exceptions.md R206). -/

namespace Sys2Proof.Machine

/-- `{hi, lo}` as a u16 (00_scope.md R8). -/
def concatBytes (hi lo : Byte) : Half := hi ++ lo

/-- `v[7:0]`. -/
def lowByte (v : Half) : Byte := v.extractLsb' 0 8

/-- `v[15:8]`. -/
def highByte (v : Half) : Byte := v.extractLsb' 8 8

/-- A u16 on the wire: low byte first (R53). -/
def wireBytes (v : Half) : List Byte := [lowByte v, highByte v]

/-- The declared length once the high byte `b` has arrived: `L = {b, rx_len[7:0]}` (R71, 41_rx_framer.md R120). -/
def declaredLength (b : Byte) (rxLen : Half) : Half := concatBytes b (lowByte rxLen)

/-- The received CRC once its high byte `b` has arrived: `C_rx = {b, rx_crc_lo}` (R72). -/
def receivedCrc (b lo : Byte) : Half := concatBytes b lo

/-- The CRC-covered bytes of a frame: id, length low byte first, payload (R70). -/
def coveredBytes (id : Byte) (n : Half) (payload : List Byte) : List Byte :=
  id :: (wireBytes n ++ payload)

/-- Why an `ENCODE` with these operands is refused, if it is (R206). The length is looked at first (log entry 10). -/
def encodeRefusal (p : Params) (n : Half) (payload : List Byte) (space : Option Nat) : Option RefuseReason :=
  if payload.length ≠ n.toNat then some .payloadLengthMismatch
  else if space.isSome ≠ p.txSpaceCheck then some .spaceOperandMissing
  else none

end Sys2Proof.Machine
end

