-- ==== Sys2Proof/Machine/Ops.lean ====
section
/-! DEFINITION. The named operations over the buffer, the registry, the CRC and the framer that the meanings share. -/

namespace Sys2Proof.Machine

/-- The value listed at index `a`, or no value. -/
def readCell {β : Type} (m : List (Nat × β)) (a : Nat) : Option β :=
  match m with
  | [] => noValue
  | c :: rest => if c.1 = a then some c.2 else readCell rest a

/-- Index `a` takes the value `v`; the indices stay strictly rising. -/
def writeCell {β : Type} (m : List (Nat × β)) (a : Nat) (v : β) : List (Nat × β) :=
  match m with
  | [] => [(a, v)]
  | c :: rest =>
    if a < c.1 then (a, v) :: c :: rest
    else if a = c.1 then (a, v) :: rest
    else c :: writeCell rest a v

/-- The value of buffer cell `a`, or no value (10_state.md R29). -/
def Memory.read (m : Memory) (a : Nat) : Option Byte := readCell m a

/-- Buffer cell `a` takes the value `b`. -/
def Memory.write (m : Memory) (a : Nat) (b : Byte) : Memory := writeCell m a b

/-- `rx_buf[i] <- no value`, for every i (41_rx_framer.md R121, R122). -/
def Memory.cleared : Memory := []

/-- `BufWrite(i, b)` (00_scope.md R10, 20_memory.md R50). A cell at or above `RX_CAP` does not exist (log entry 8). -/
def bufWrite (p : Params) (m : Memory) (i : Nat) (b : Byte) : Except Fault Memory :=
  if i < p.rxCap.val then .ok (m.write i b) else .error .bufferIndexOutOfRange

/-- `BufRead(i)` (00_scope.md R10, 20_memory.md R50). Reading a cell that holds no value is a fault (10_state.md R29). -/
def bufRead (p : Params) (m : Memory) (i : Nat) : Except Fault Byte :=
  if i < p.rxCap.val then
    match m.read i with
    | some b => .ok b
    | none => .error .readOfNoValue
  else .error .bufferIndexOutOfRange

/-- `[BufRead(i), ..., BufRead(i + n - 1)]` (41_rx_framer.md R137). -/
def bufReadFrom (p : Params) (m : Memory) (i : Nat) : Nat → Except Fault (List Byte)
  | 0 => .ok []
  | n + 1 =>
    match bufRead p m i with
    | .error f => .error f
    | .ok b =>
      match bufReadFrom p m (i + 1) n with
      | .error f => .error f
      | .ok bs => .ok (b :: bs)

/-- `reg[id].tag`, which has no value while `reg[id].valid` is 0; one read gives the whole entry (10_state.md R32,
20_memory.md R51). -/
def regTag (r : Registry) (id : Byte) : Option Tag := readCell r id.toNat

/-- `reg[id].valid` (10_state.md R32). -/
def regValid (r : Registry) (id : Byte) : Bool := (regTag r id).isSome

/-- `reg[id].valid <- 1; reg[id].tag <- tag` (42_dispatch.md R160). -/
def regWrite (r : Registry) (id : Byte) (tag : Tag) : Registry := writeCell r id.toNat tag

/-- Every entry invalid, every tag no value (44_control.md R181). -/
def regCleared : Registry := []

/-- One pass of 40_crc.md R100's loop. -/
def crcShift (v : Half) : Half :=
  if v.msb then (v <<< 1) ^^^ 0x1021 else v <<< 1

/-- `n` passes of the loop. -/
def crcShifts : Nat → Half → Half
  | 0, v => v
  | n + 1, v => crcShifts n (crcShift v)

/-- `crc16_upd(c, b)` (40_crc.md R100; its bit-serial form is from general knowledge, log entry 12). -/
def crc16Upd (c : Half) (b : Byte) : Half :=
  crcShifts 8 (c ^^^ (b.zeroExtend 16 <<< 8))

/-- Folds the bytes of `s` into the running CRC `c`, first byte first. -/
def crc16Fold (c : Half) (s : List Byte) : Half := s.foldl crc16Upd c

/-- `crc16_compute(s)` (40_crc.md R102): from 0x0000, no final exclusive-or, no reflection. -/
def crc16Compute (s : List Byte) : Half := crc16Fold 0x0000 s

/-- `emit o` (00_scope.md R10). -/
def emit (o : Output) (s : State) : State := { s with outputs := s.outputs ++ [o] }

/-- `RxOut(0)`: AwaitingMore, no frame, no dispatch (30_encoding.md R81). -/
def rxAwaiting : Output := .rxOut .awaitingMore none none

/-- `FramerReset()` (41_rx_framer.md R121). -/
def framerReset (s : State) : State :=
  { s with
    rxState := .awaitStart1
    rxCrcPhase := false
    rxLen := 0
    rxIdx := 0
    rxCrc := 0x0000
    rxBuf := Memory.cleared
    tmoElapsed := 0
    rxId := none
    rxCrcLo := none }

/-- `raise Error(kind)`, the block's one form of taking an exception (60_exceptions.md R200): the framer is reset and
the error's result emitted. Nothing is saved and nothing is redirected (R210); there is no return operation, the
reset itself is the recovery (R211). -/
def raiseError (kind : LinkError) (s : State) : State :=
  emit (.rxOut kind.code none none) (framerReset s)

/-- `refuse(reason)` (00_scope.md R10, 60_exceptions.md R206): the state is unchanged but for the mark, and nothing is
emitted. `lastRefusal` is the model's own record of the reason (log entry 6). -/
def refuse (reason : RefuseReason) (s : State) : State :=
  { s with refused := true, lastRefusal := some reason }

/-- `Dispatch(id, p)` (42_dispatch.md R161): the `disp` field of `RxOut`, absent where the id is not registered (R162). -/
def dispatchOf (s : State) (id : Byte) (payload : List Byte) : Option Dispatched :=
  match regTag s.reg id with
  | some tag => some { id := id, tag := tag, payload := payload }
  | none => none

/-- The wire frame of 30_encoding.md R70 for an id and a payload of declared length `n`. -/
def frameBytes (p : Params) (id : Byte) (n : Half) (payload : List Byte) : List Byte :=
  [p.start1, p.start2] ++ coveredBytes id n payload
    ++ wireBytes (crc16Compute (coveredBytes id n payload)) ++ [p.stop1, p.stop2]

/-- The timeout in milliseconds: `timeout_ms` counts ticks of `TICK_PERIOD_MS` milliseconds (44_control.md R180,
70_reset_and_hazards.md R241). No operation reads it. -/
def timeoutMilliseconds (s : State) : Nat := s.timeoutMs.toNat * s.params.tickPeriodMs

end Sys2Proof.Machine
end

