-- ==== Sys2Proof/Machine/Control.lean ====
section
/-! DEFINITION. The control operations (44_control.md R180, R181). -/

namespace Sys2Proof.Machine

/-- `CFG_TIMEOUT t` (R180): takes effect from the next `TICK`. -/
def execCfgTimeout (t : Half) (s : State) : Result :=
  .next (emit .ack { s with timeoutMs := t })

/-- `RESET` (R181): every spec field to its reset value but `refused`. -/
def execReset (s : State) : Result :=
  let s' := framerReset s
  .next (emit .ack { s' with timeoutMs := s.params.timeoutReset, reg := regCleared, crcAcc := 0x0000 })

end Sys2Proof.Machine
end

