-- ==== Sys2Proof/Machine/Crc.lean ====
section
/-! DEFINITION. The standalone CRC generator (40_crc.md R103 to R105). None of the three has a failure mode (R106). -/

namespace Sys2Proof.Machine

/-- `CRC_INIT` (R104). -/
def execCrcInit (s : State) : Result :=
  .next (emit (.crcOut 0x0000) { s with crcAcc := 0x0000 })

/-- `CRC_FEED b` (R105). -/
def execCrcFeed (b : Byte) (s : State) : Result :=
  let v := crc16Upd s.crcAcc b
  .next (emit (.crcOut v) { s with crcAcc := v })

/-- `CRC_UPDATE c, b` (R103): a pure query. -/
def execCrcUpdate (c : Half) (b : Byte) (s : State) : Result :=
  .next (emit (.crcOut (crc16Upd c b)) s)

end Sys2Proof.Machine
end

