-- ==== Sys2Proof/Machine/Encoder.lean ====
section
/-! DEFINITION. The frame encoder (43_tx_encoder.md R170 to R174). It writes no state. -/

namespace Sys2Proof.Machine

/-- The space check fails: `TX_SPACE_CHECK and space < 9 + n` (R170, R171). -/
def spaceShort (p : Params) (n : Half) (space : Option Nat) : Bool :=
  match space with
  | some k => p.txSpaceCheck && decide (k < 9 + n.toNat)
  | none => false

/-- The output of an `ENCODE` that is not refused (R170): InsufficientSpace with nothing emitted, or the frame. -/
def encodeOutput (p : Params) (id : Byte) (n : Half) (payload : List Byte) (space : Option Nat) : Output :=
  if spaceShort p n space then .txOut .insufficientSpace []
  else .txOut .success (frameBytes p id n payload)

/-- The state after an `ENCODE`, refused (60_exceptions.md R206) or not. -/
def afterEncode (id : Byte) (n : Half) (payload : List Byte) (space : Option Nat) (s : State) : State :=
  match encodeRefusal s.params n payload space with
  | some reason => refuse reason s
  | none => emit (encodeOutput s.params id n payload space) s

/-- `ENCODE id, payload [, space]` (R170). -/
def execEncode (id : Byte) (n : Half) (payload : List Byte) (space : Option Nat) (s : State) : Result :=
  .next (afterEncode id n payload space s)

end Sys2Proof.Machine
end

