-- ==== Sys2Proof/Machine/Framer.lean ====
section
/-! DEFINITION. The receive framer: `RX_BYTE` (41_rx_framer.md R120 to R138), one definition per state. Each takes the
state after R120's common effect `tmo_elapsed <- 0`, which no rule of the step reads. -/

namespace Sys2Proof.Machine

/-- R122 (the first start marker) and R123 (any other byte, ignored). -/
def rxAwaitStart1 (b : Byte) (s : State) : State :=
  if b = s.params.start1 then
    emit rxAwaiting
      { s with rxCrc := 0x0000, rxIdx := 0, rxBuf := Memory.cleared, rxState := .awaitStart2 }
  else emit rxAwaiting s

/-- R124 (the second start marker) and R125 (resync: the byte is consumed and not examined again). -/
def rxAwaitStart2 (b : Byte) (s : State) : State :=
  if b = s.params.start2 then emit rxAwaiting { s with rxState := .readId }
  else emit rxAwaiting (framerReset s)

/-- R126: the frame id. -/
def rxReadId (b : Byte) (s : State) : State :=
  emit rxAwaiting { s with rxId := some b, rxCrc := crc16Upd s.rxCrc b, rxState := .readLenLow }

/-- R127: the length's low byte. -/
def rxReadLenLow (b : Byte) (s : State) : State :=
  emit rxAwaiting { s with rxLen := b.zeroExtend 16, rxCrc := crc16Upd s.rxCrc b, rxState := .readLenHigh }

/-- R130 (BadLength), R129 (empty payload) and R128 (a payload follows), in R120's order. -/
def rxReadLenHigh (b : Byte) (s : State) : State :=
  let L := declaredLength b s.rxLen
  if s.params.rxCap.val < L.toNat then raiseError .badLength s
  else if L = 0 then
    emit rxAwaiting
      { s with rxLen := 0, rxCrc := crc16Upd s.rxCrc b, rxCrcPhase := false, rxState := .readCrc }
  else emit rxAwaiting { s with rxLen := L, rxCrc := crc16Upd s.rxCrc b, rxState := .readData }

/-- R131: one payload byte; the last one moves to `ReadCrc` in the same step. -/
def rxReadData (b : Byte) (s : State) : Result :=
  match bufWrite s.params s.rxBuf s.rxIdx.toNat b with
  | .error f => .fault f
  | .ok m =>
    let s' := { s with rxBuf := m, rxCrc := crc16Upd s.rxCrc b, rxIdx := s.rxIdx + 1 }
    if s.rxIdx + 1 = s.rxLen then
      .next (emit rxAwaiting { s' with rxState := .readCrc, rxCrcPhase := false })
    else .next (emit rxAwaiting s')

/-- R132 (low byte), R133 (high byte, match) and R134 (CrcMismatch). The CRC bytes are not folded. -/
def rxReadCrc (b : Byte) (s : State) : Result :=
  if s.rxCrcPhase = false then
    .next (emit rxAwaiting { s with rxCrcLo := some b, rxCrcPhase := true })
  else
    match s.rxCrcLo with
    | none => .fault .readOfNoValue
    | some lo =>
      if receivedCrc b lo = s.rxCrc then
        .next (emit rxAwaiting { s with rxCrcPhase := false, rxState := .readStop1 })
      else .next (raiseError .crcMismatch s)

/-- R135 (the first stop marker) and R136 (BadStopByte). -/
def rxReadStop1 (b : Byte) (s : State) : State :=
  if b = s.params.stop1 then emit rxAwaiting { s with rxState := .readStop2 }
  else raiseError .badStopByte s

/-- R137's action: the frame is read out and the dispatch decided on the state before the reset of the same step. -/
def rxFrameComplete (s : State) : Result :=
  match s.rxId with
  | none => .fault .readOfNoValue
  | some id =>
    match bufReadFrom s.params s.rxBuf 0 s.rxLen.toNat with
    | .error f => .fault f
    | .ok payload =>
      .next (emit (.rxOut .frameComplete (some { id := id, payload := payload }) (dispatchOf s id payload))
        (framerReset s))

/-- R137 (FrameComplete) and R138 (BadStopByte). -/
def rxReadStop2 (b : Byte) (s : State) : Result :=
  if b = s.params.stop2 then rxFrameComplete s
  else .next (raiseError .badStopByte s)

/-- `RX_BYTE b` (R120): the timeout counter restarts, then the rule of the framer's state applies. -/
def execRxByte (b : Byte) (s : State) : Result :=
  let s0 := { s with tmoElapsed := 0 }
  match s.rxState with
  | .awaitStart1 => .next (rxAwaitStart1 b s0)
  | .awaitStart2 => .next (rxAwaitStart2 b s0)
  | .readId => .next (rxReadId b s0)
  | .readLenLow => .next (rxReadLenLow b s0)
  | .readLenHigh => .next (rxReadLenHigh b s0)
  | .readData => rxReadData b s0
  | .readCrc => rxReadCrc b s0
  | .readStop1 => .next (rxReadStop1 b s0)
  | .readStop2 => rxReadStop2 b s0

end Sys2Proof.Machine
end

