-- ==== Sys2Proof/Machine/Registry.lean ====
section
/-! DEFINITION. The command registry's write (42_dispatch.md R160); the dispatch decision is `dispatchOf`. -/

namespace Sys2Proof.Machine

/-- `REG_SET id, tag` (R160): last write wins. -/
def execRegSet (id : Byte) (tag : Tag) (s : State) : Result :=
  .next (emit .ack { s with reg := regWrite s.reg id tag })

end Sys2Proof.Machine
end

