-- ==== Sys2Proof/Machine/Timeout.lean ====
section
/-! DEFINITION. The timeout counter: `TICK` (41_rx_framer.md R139 to R141). -/

namespace Sys2Proof.Machine

/-- `e = tmo_elapsed + 1`, computed at 17 bits (10_state.md R30, 41_rx_framer.md R140). -/
def elapsedNext (s : State) : BitVec 17 := s.tmoElapsed.zeroExtend 17 + 1

/-- The tick outside `AwaitStart1`: R141 (Timeout, strictly past the limit: 90_conflicts.md C1) and R140. -/
def tickInFrame (s : State) : State :=
  if s.timeoutMs.toNat < (elapsedNext s).toNat then raiseError .timeout s
  else emit rxAwaiting { s with tmoElapsed := (elapsedNext s).truncate 16 }

/-- `TICK`: an idle framer never times out (R139). -/
def execTick (s : State) : Result :=
  if s.rxState = .awaitStart1 then .next (emit rxAwaiting s)
  else .next (tickInFrame s)

end Sys2Proof.Machine
end

