-- ==== Sys2Proof/Machine/Dispatch.lean ====
section
/-! DEFINITION. One arm per operation. -/

namespace Sys2Proof.Machine

open Sys2Proof

def exec (i : Instr) (s : State) : Host.Outcome State Fault Refusal :=
  match i with
  | .rxByte b => Sys2Proof.Machine.execRxByte b s
  | .tick => Sys2Proof.Machine.execTick s
  | .crcInit => Sys2Proof.Machine.execCrcInit s
  | .crcFeed b => Sys2Proof.Machine.execCrcFeed b s
  | .crcUpdate c b => Sys2Proof.Machine.execCrcUpdate c b s
  | .encode id n payload space => Sys2Proof.Machine.execEncode id n payload space s
  | .regSet id tag => Sys2Proof.Machine.execRegSet id tag s
  | .cfgTimeout t => Sys2Proof.Machine.execCfgTimeout t s
  | .reset => Sys2Proof.Machine.execReset s

end Sys2Proof.Machine
end

