-- ==== Sys2Proof/Machine/Step.lean ====
section
/-! DEFINITION. One step: one operation, applied atomically (00_scope.md R11). -/

namespace Sys2Proof.Machine

/-- Takes the next presented operation and runs it; with none presented the block keeps all its state
(60_exceptions.md R218, 70_reset_and_hazards.md R232; log entry 4). A reserved word is refused by name (30_encoding.md
R79, 60_exceptions.md R206). -/
def step (s : State) : Host.Outcome State Fault Refusal :=
  match s.ops with
  | [] => .next s
  | op :: rest =>
    match decode op with
    | .ok i => exec i { s with ops := rest }
    | .error reason => .next (refuse reason { s with ops := rest })

/-- `s` with the table word presented as the next operation, so that the next step takes it (log entries 3, 14).
Beside an `ENCODE` word stand an all-zero payload of the declared length and, where the instance has the space
check, a space that just suffices. -/
def State.withFetchWord (s : State) (nbits w : Nat) : State :=
  { s with
    ops := presentTableWord nbits w (fun n => if s.params.txSpaceCheck then some (9 + n) else none) :: s.ops }

end Sys2Proof.Machine
end

