-- ==== Sys2Proof/Machine/Pseudo.lean ====
section
/-! DEFINITION. The pseudo-operations (30_encoding.md R84): each stands for a sequence of real operations, expanded
before execution. -/

namespace Sys2Proof.Machine

/-- `CRC_COMPUTE [b0, ..., bk]`. -/
def crcComputeOps (bytes : List Byte) : List Instr := .crcInit :: bytes.map .crcFeed

/-- `RX_STREAM [b0, ..., bk]`. -/
def rxStreamOps (bytes : List Byte) : List Instr := bytes.map .rxByte

/-- `RX_FRAME id, [p0, ..., pm]`: the frame of R70 for an instance with parameters `p`. DESIGN CHOICE: for more than
65535 payload bytes, where R70 gives no frame and R84 says nothing, the length field is the length mod 2^16 (log
entry 19). -/
def rxFrameOps (p : Params) (id : Byte) (payload : List Byte) : List Instr :=
  rxStreamOps (frameBytes p id (BitVec.ofNat 16 payload.length) payload)

/-- `TICKS k`. -/
def ticksOps (k : Nat) : List Instr := List.replicate k .tick

end Sys2Proof.Machine
end

