-- ==== Sys2Proof/Machine/Text.lean ====
section
/-! DEFINITION. The textual form of operations (30_encoding.md R83), written and read as lists of characters. What R83
leaves open (letter case, leading zeros, spaces) is log entry 18; lines of pseudo-operations are log entry 20. -/

namespace Sys2Proof.Machine

/-- One hexadecimal digit, capitals as in R83's examples. -/
def hexDigit (n : Nat) : Char := if n < 10 then Char.ofNat (48 + n) else Char.ofNat (55 + n)

/-- The `k` last hexadecimal digits of `v`. -/
def hexDigits : Nat → Nat → List Char
  | 0, _ => []
  | k + 1, v => hexDigits k (v / 16) ++ [hexDigit (v % 16)]

/-- A field in hexadecimal with the prefix `0x`, all digits of its width. -/
def hexText (k v : Nat) : List Char := '0' :: 'x' :: hexDigits k v

/-- Pieces separated by a comma and a space. -/
def commaSeparated : List (List Char) → List Char
  | [] => []
  | [a] => a
  | a :: b :: rest => a ++ [',', ' '] ++ commaSeparated (b :: rest)

/-- `space=<decimal>`, where there is a space operand. -/
def spaceText : Option Nat → List (List Char)
  | none => []
  | some k => ["space=".toList ++ Nat.toDigits 10 k]

/-- The textual form of an operation (R83): the mnemonic, then the fields in R77's order. -/
def instrText : Instr → List Char
  | .rxByte b => "RX_BYTE ".toList ++ hexText 2 b.toNat
  | .tick => "TICK".toList
  | .crcInit => "CRC_INIT".toList
  | .crcFeed b => "CRC_FEED ".toList ++ hexText 2 b.toNat
  | .crcUpdate c b => "CRC_UPDATE ".toList ++ commaSeparated [hexText 4 c.toNat, hexText 2 b.toNat]
  | .encode id _ payload space =>
      "ENCODE ".toList ++ commaSeparated ([hexText 2 id.toNat,
        ['['] ++ commaSeparated (payload.map fun b => hexText 2 b.toNat) ++ [']']] ++ spaceText space)
  | .regSet id tag => "REG_SET ".toList ++ commaSeparated [hexText 2 id.toNat, hexText 4 tag.toNat]
  | .cfgTimeout t => "CFG_TIMEOUT ".toList ++ hexText 4 t.toNat
  | .reset => "RESET".toList

/-- The value of a digit in base `base` (at most 16), either case. -/
def digitValue (base : Nat) (c : Char) : Option Nat :=
  let v := if '0' ≤ c ∧ c ≤ '9' then c.toNat - 48
    else if 'A' ≤ c ∧ c ≤ 'F' then c.toNat - 55
    else if 'a' ≤ c ∧ c ≤ 'f' then c.toNat - 87
    else 16
  if v < base then some v else none

/-- The number the digits stand for, continuing from `acc`. -/
def readDigits (base acc : Nat) : List Char → Option Nat
  | [] => some acc
  | c :: rest =>
    match digitValue base c with
    | some v => readDigits base (acc * base + v) rest
    | none => none

/-- A non-empty run of digits. -/
def readNumber (base : Nat) : List Char → Option Nat
  | [] => none
  | c :: rest => readDigits base 0 (c :: rest)

def isBlank (c : Char) : Bool := c == ' ' || c == '\t' || c == '\r'

/-- The text without the blanks at its two ends. -/
def trimBlanks (t : List Char) : List Char :=
  ((t.dropWhile isBlank).reverse.dropWhile isBlank).reverse

/-- A hexadecimal field of `w` bits; a value that does not fit is no field. -/
def readField (w : Nat) (t : List Char) : Option (BitVec w) :=
  match trimBlanks t with
  | '0' :: 'x' :: digits =>
    match readNumber 16 digits with
    | some v => if v < 2 ^ w then some (BitVec.ofNat w v) else none
    | none => none
  | _ => none

/-- The pieces between the characters `sep`. -/
def splitAtChar (sep : Char) : List Char → List (List Char)
  | [] => [[]]
  | c :: rest =>
    match splitAtChar sep rest with
    | [] => [[c]]
    | piece :: pieces => if c = sep then [] :: piece :: pieces else (c :: piece) :: pieces

/-- Every field of a list, or none. -/
def readFields (w : Nat) : List (List Char) → Option (List (BitVec w))
  | [] => some []
  | t :: rest =>
    match readField w t, readFields w rest with
    | some v, some vs => some (v :: vs)
    | _, _ => none

/-- The bytes between the brackets of an `ENCODE`. -/
def readPayload (t : List Char) : Option (List Byte) :=
  if trimBlanks t = [] then some [] else readFields 8 (splitAtChar ',' t)

/-- What stands after the closing bracket of an `ENCODE`: nothing, or `, space=<decimal>`. -/
def readSpace (t : List Char) : Option (Option Nat) :=
  match trimBlanks t with
  | [] => some none
  | ',' :: rest =>
    match trimBlanks rest with
    | 's' :: 'p' :: 'a' :: 'c' :: 'e' :: '=' :: digits => (readNumber 10 digits).map some
    | _ => none
  | _ => none

/-- The operands of an `ENCODE`; `n` is the list's length (R83), so a list of more than 65535 bytes is no `ENCODE`
(43_tx_encoder.md R173). -/
def readEncode (t : List Char) : Option Instr :=
  match splitAtChar '[' t with
  | [front, back] =>
    match splitAtChar ',' front, splitAtChar ']' back with
    | [idText, gap], [inside, after] =>
      match readField 8 idText, trimBlanks gap, readPayload inside, readSpace after with
      | some id, [], some payload, some space =>
        if payload.length < 2 ^ 16 then
          some (.encode id (BitVec.ofNat 16 payload.length) payload space)
        else none
      | _, _, _, _ => none
    | _, _ => none
  | _ => none

/-- An operation with no operands. -/
def readBare (i : Instr) (t : List Char) : Option Instr := if trimBlanks t = [] then some i else none

/-- An operation with two fields of the given widths. -/
def readPair (v w : Nat) (make : BitVec v → BitVec w → Instr) (t : List Char) : Option Instr :=
  match splitAtChar ',' t with
  | [a, b] =>
    match readField v a, readField w b with
    | some x, some y => some (make x y)
    | _, _ => none
  | _ => none

/-- The operation of a mnemonic and the text of its operands. DESIGN CHOICE: the name of a pseudo-operation (R84) is no
mnemonic here, since R83 gives text forms for R77's operations; its line is rejected (log entry 20). -/
def readInstr (mnemonic operands : List Char) : Option Instr :=
  if mnemonic = "RX_BYTE".toList then (readField 8 operands).map .rxByte
  else if mnemonic = "TICK".toList then readBare .tick operands
  else if mnemonic = "CRC_INIT".toList then readBare .crcInit operands
  else if mnemonic = "CRC_FEED".toList then (readField 8 operands).map .crcFeed
  else if mnemonic = "CRC_UPDATE".toList then readPair 16 8 .crcUpdate operands
  else if mnemonic = "ENCODE".toList then readEncode operands
  else if mnemonic = "REG_SET".toList then readPair 8 16 .regSet operands
  else if mnemonic = "CFG_TIMEOUT".toList then (readField 16 operands).map .cfgTimeout
  else if mnemonic = "RESET".toList then readBare .reset operands
  else none

/-- One line: a comment from `;` on is dropped; a blank line holds no operation; a line that is neither blank nor
an operation is rejected (`none`). -/
def readLine (line : List Char) : Option (Option Instr) :=
  let t := trimBlanks (line.takeWhile fun c => c != ';')
  if t = [] then some none
  else (readInstr (t.takeWhile fun c => !isBlank c) (t.dropWhile fun c => !isBlank c)).map some

/-- The operations of several lines, or none where a line is rejected. -/
def readLines : List (List Char) → Option (List Instr)
  | [] => some []
  | l :: rest =>
    match readLine l, readLines rest with
    | some (some i), some is => some (i :: is)
    | some none, some is => some is
    | _, _ => none

/-- A text, one operation per line (R83). -/
def readText (t : List Char) : Option (List Instr) := readLines (splitAtChar '\n' t)

end Sys2Proof.Machine
end

