-- ==== Sys2Proof/Safety.lean ====
section
/-! DEFINITION. The invariants of 10_state.md R39 and 41_rx_framer.md R143, runs, and what a safe run is. -/

namespace Sys2Proof.Machine

/-- The states after the header has been accepted: `ReadData`, `ReadCrc`, `ReadStop1`, `ReadStop2`. -/
def DecoderState.pastHeader : DecoderState → Bool
  | .readData => true
  | .readCrc => true
  | .readStop1 => true
  | .readStop2 => true
  | .awaitStart1 => false
  | .awaitStart2 => false
  | .readId => false
  | .readLenLow => false
  | .readLenHigh => false

/-- `ReadLenLow` or later: the frame id has been read. -/
def DecoderState.pastId : DecoderState → Bool
  | .readLenLow => true
  | .readLenHigh => true
  | .readData => true
  | .readCrc => true
  | .readStop1 => true
  | .readStop2 => true
  | .awaitStart1 => false
  | .awaitStart2 => false
  | .readId => false

/-- The invariants of 10_state.md R39 (items 1 to 4, 6, 7), the canonical form of the two stores, the range of
`TICK_PERIOD_MS`, and what an induction over the steps needs besides. R39's item 5 is not kept by `CFG_TIMEOUT`
and is a statement of its own. -/
structure Inv (s : State) : Prop where
  /-- 00_scope.md R5. -/
  period : s.params.wf
  /-- The receive buffer is in canonical form. -/
  bufWf : s.rxBuf.wf = true
  /-- The registry is in canonical form and lists none but the 256 ids. -/
  regWf : s.reg.wf = true
  /-- R39.1. -/
  lenFits : s.rxState.pastHeader = true → s.rxLen.toNat ≤ s.params.rxCap.val
  /-- R39.2, in `ReadData`. -/
  idxInData : s.rxState = .readData → s.rxIdx.toNat < s.rxLen.toNat
  /-- R39.2, after the payload. -/
  idxAfterData : s.rxState = .readCrc ∨ s.rxState = .readStop1 ∨ s.rxState = .readStop2 → s.rxIdx = s.rxLen
  /-- Before the payload no byte has been stored. -/
  idxBeforeData : s.rxState.pastHeader = false → s.rxIdx = 0
  /-- 41_rx_framer.md R127: `rx_len[15:8]` is 0 until the high byte arrives. -/
  lenHighZero : s.rxState.pastHeader = false → s.rxLen.toNat < 256
  /-- R39.3. -/
  cells : ∀ a : Nat, (s.rxBuf.read a).isSome = true ↔ a < s.rxIdx.toNat
  /-- R39.4. -/
  idle : s.rxState = .awaitStart1 → s.tmoElapsed = 0
  /-- R39.6. -/
  idHeld : s.rxState.pastId = true → s.rxId.isSome = true
  /-- R39.7. -/
  crcLoHeld : s.rxState = .readCrc → s.rxCrcPhase = true → s.rxCrcLo.isSome = true
  /-- The model's own record of a refusal goes with the mark `refused` (log entry 6). -/
  refusalKept : s.refused = s.lastRefusal.isSome

/-- The bytes 41_rx_framer.md R143 says have been folded into `rx_crc` so far: id, length low, length high, payload. -/
def foldedSoFar (s : State) : Option (List Byte) :=
  match s.rxState with
  | .awaitStart1 => some []
  | .awaitStart2 => some []
  | .readId => some []
  | .readLenLow => s.rxId.map fun id => [id]
  | .readLenHigh => s.rxId.map fun id => [id, lowByte s.rxLen]
  | .readData | .readCrc | .readStop1 | .readStop2 =>
    match s.rxId, bufReadFrom s.params s.rxBuf 0 s.rxIdx.toNat with
    | some id, .ok payload => some (coveredBytes id s.rxLen payload)
    | _, _ => none

/-- R143: the running CRC is that of exactly the bytes folded so far. -/
def CrcCoversFrame (s : State) : Prop :=
  ∃ bytes, foldedSoFar s = some bytes ∧ s.rxCrc = crc16Compute bytes

/-- Runs the operations one after the other (20_memory.md R62), stopping at a fault or a refusal. -/
def runInstrs : List Instr → State → Result
  | [], s => .next s
  | i :: rest, s =>
    match exec i s with
    | .next t => runInstrs rest t
    | .fault f => .fault f
    | .refused r => .refused r

/-- `k` steps, stopping at a fault or a refusal. -/
def runSteps : Nat → State → Result
  | 0, s => .next s
  | k + 1, s =>
    match step s with
    | .next t => runSteps k t
    | .fault f => .fault f
    | .refused r => .refused r

/-- A safe state: it meets the invariants and no operation has been refused, so nothing the spec gives no meaning
has happened on the way to it (10_state.md R35, 60_exceptions.md R206). -/
def Safe (s : State) : Prop := Inv s ∧ s.refused = false

end Sys2Proof.Machine
end

