-- ==== Sys2Proof/WellFormed.lean ====
section
/-! DEFINITION. When an operation's operands are as 30_encoding.md R77 and R78 require. Field widths are in the
types; what is left are the two conditions on the side operands of `ENCODE`. -/

namespace Sys2Proof

/-- R78: `len(payload)` equals `n`. -/
def payloadFits (n : Half) (payload : List Byte) : Bool :=
  payload.length == n.toNat

/-- R78: `space` is carried exactly when `TX_SPACE_CHECK` is true. -/
def spacePresented (p : Params) (space : Option Nat) : Bool :=
  space.isSome == p.txSpaceCheck

/-- The operands of `i` are well formed for an instance with parameters `p`. -/
def Instr.wellFormed (p : Params) : Instr → Bool
  | .rxByte _ => true
  | .tick => true
  | .crcInit => true
  | .crcFeed _ => true
  | .crcUpdate _ _ => true
  | .encode _ n payload space => payloadFits n payload && spacePresented p space
  | .regSet _ _ => true
  | .cfgTimeout _ => true
  | .reset => true

end Sys2Proof
end

