-- ==== Sys2Proof/Certificates/Slice0/Obligations.lean ====
section
/-! DEFINITION. The statements for the provers. Each docstring names the rule of spec/ it formalises. A record update
`s with …` says that every field not named is unchanged; `rxAwaiting` is the output `RxOut(0)`. -/

open Sys2Proof Sys2Proof.Machine

/-! ### Vocabulary of the statements -/

namespace Sys2Proof.Stated

/-- The reserved bits of 30_encoding.md R77 by `w[31:28]`, as a mask; none for a reserved opcode. -/
def reservedMask : Nat → Option OpWord
  | 0x1 => some 0x0FFFFF00
  | 0x2 => some 0x0FFFFFFF
  | 0x3 => some 0x0FFFFFFF
  | 0x4 => some 0x0FFFFF00
  | 0x5 => some 0x0F000000
  | 0x6 => some 0x0F000000
  | 0x7 => some 0x0F000000
  | 0x8 => some 0x0FFF0000
  | 0xF => some 0x0FFFFFFF
  | _ => none

/-- `w[31:28]`, as a number. -/
def opNibble (op : Op) : Nat := op.word.toNat / 2 ^ 28

/-- The word is one R77 gives a meaning: a defined opcode, every reserved bit 0. -/
def definedWord (op : Op) : Prop := ∃ m, reservedMask (opNibble op) = some m ∧ op.word &&& m = 0

/-- The receive buffer holds exactly this payload at its start: cell k holds byte k, and the whole lies below `RX_CAP`. -/
def bufferHolds (s : State) (payload : List Byte) : Prop :=
  payload.length ≤ s.params.rxCap.val ∧
    ∀ (k : Nat) (h : k < payload.length), s.rxBuf.read k = some payload[k]

/-- `RX_BYTE` of each byte, each preceded by its number of `TICK`s. -/
def pacedBytes : List (Nat × Byte) → List Instr
  | [] => []
  | (k, b) :: rest => List.replicate k .tick ++ .rxByte b :: pacedBytes rest

/-- Between `s` and `t` exactly the one output `o` was emitted. -/
def emitted (s t : State) (o : Output) : Prop := t.outputs = s.outputs ++ [o]

/-- The framer fields of 10_state.md R22 to R30 are the same. -/
def sameFramer (s t : State) : Prop :=
  t.rxState = s.rxState ∧ t.rxCrcPhase = s.rxCrcPhase ∧ t.rxId = s.rxId ∧ t.rxLen = s.rxLen ∧ t.rxIdx = s.rxIdx ∧
  t.rxCrc = s.rxCrc ∧ t.rxCrcLo = s.rxCrcLo ∧ t.rxBuf = s.rxBuf ∧ t.tmoElapsed = s.tmoElapsed

/-- A u16 read as a polynomial over GF(2) (40_crc.md R101). -/
noncomputable def polyOf {n : Nat} (v : BitVec n) : Polynomial (ZMod 2) :=
  ∑ i ∈ Finset.range n, if v.getLsbD i then Polynomial.X ^ i else 0

/-- `G(x) = x^16 + x^12 + x^5 + 1` (40_crc.md R101). -/
noncomputable def crcGenerator : Polynomial (ZMod 2) :=
  Polynomial.X ^ 16 + Polynomial.X ^ 12 + Polynomial.X ^ 5 + 1

end Sys2Proof.Stated

open Sys2Proof.Stated

/-! ### Encoding -/

/-- 30_encoding.md R77 and R79 (the two reserved words) on words written out from them: those of 95_test_vectors.md's
operations. A sanity check. The zero payload and the absent space of the `ENCODE` clause are the model's own: how
it presents a bare `ENCODE` word (log entry 14), read at 32 bits (log entry 15). -/
def Obligations.SampleWordsDecode : Prop :=
  decodeTableWord 32 0x100000A5 = some (.rxByte 0xA5) ∧
  decodeTableWord 32 0x20000000 = some .tick ∧
  decodeTableWord 32 0x30000000 = some .crcInit ∧
  decodeTableWord 32 0x40000031 = some (.crcFeed 0x31) ∧
  decodeTableWord 32 0x50123456 = some (.crcUpdate 0x1234 0x56) ∧
  decodeTableWord 32 0x60100003 = some (.encode 0x10 3 [0, 0, 0] none) ∧
  decodeTableWord 32 0x70100007 = some (.regSet 0x10 0x0007) ∧
  decodeTableWord 32 0x800007D0 = some (.cfgTimeout 0x07D0) ∧
  decodeTableWord 32 0xF0000000 = some .reset ∧
  decodeTableWord 32 0x90000000 = none ∧
  decodeTableWord 32 0x10000100 = none

/-- R77 and R85: a word with a defined opcode and every reserved bit 0 decodes to that opcode's operation, its fields
taken as R77 gives them, unsigned; `ENCODE` takes its side operands from beside the word. -/
def Obligations.DecodingExtractsTheFields : Prop :=
  ∀ op : Op, definedWord op →
    let w := op.word.toNat
    (opNibble op = 0x1 → decode op = .ok (.rxByte (BitVec.ofNat 8 w))) ∧
    (opNibble op = 0x2 → decode op = .ok .tick) ∧
    (opNibble op = 0x3 → decode op = .ok .crcInit) ∧
    (opNibble op = 0x4 → decode op = .ok (.crcFeed (BitVec.ofNat 8 w))) ∧
    (opNibble op = 0x5 → decode op = .ok (.crcUpdate (BitVec.ofNat 16 (w / 2 ^ 8)) (BitVec.ofNat 8 w))) ∧
    (opNibble op = 0x6 →
      decode op = .ok (.encode (BitVec.ofNat 8 (w / 2 ^ 16)) (BitVec.ofNat 16 w) op.payload op.space)) ∧
    (opNibble op = 0x7 → decode op = .ok (.regSet (BitVec.ofNat 8 (w / 2 ^ 16)) (BitVec.ofNat 16 w))) ∧
    (opNibble op = 0x8 → decode op = .ok (.cfgTimeout (BitVec.ofNat 16 w))) ∧
    (opNibble op = 0xF → decode op = .ok .reset)

/-- R79: the reserved words are exactly those with a reserved opcode and those of a defined opcode with a non-zero
reserved bit; each is refused by its name, and nothing else is refused by the decoder. -/
def Obligations.ReservedWordsAreRefused : Prop :=
  ∀ op : Op,
    (decode op = .error .reservedOpcode ↔
      opNibble op ∈ ([0x0, 0x9, 0xA, 0xB, 0xC, 0xD, 0xE] : List Nat)) ∧
    (decode op = .error .reservedBits ↔ ∃ m, reservedMask (opNibble op) = some m ∧ op.word &&& m ≠ 0) ∧
    (∀ r, decode op = .error r → r = .reservedOpcode ∨ r = .reservedBits)

/-- Decoding the presented form of any operation gives it back, every operand at every value. -/
def Obligations.DecodeOfEncode : Prop :=
  ∀ i : Instr, decode (encode i) = .ok i

/-- A word decodes to an instruction only if it is that instruction's word: no bit of a decoded word is ignored. -/
def Obligations.EncodeOfDecode : Prop :=
  ∀ (op : Op) (i : Instr), decode op = .ok i → encodeWord i = op.word

/-- The textual form of an operation (R83) reads back as the operation, for every operation whose payload has the
declared length. The spelling details R83 leaves open are the model's choice (log entry 18). -/
def Obligations.TextReadsBack : Prop :=
  ∀ i : Instr, (∀ id n payload space, i = .encode id n payload space → payload.length = n.toNat) →
    readLine (instrText i) = some (some i)

/-! ### The step -/

/-- 00_scope.md R11: the next presented operation is decoded and run on the whole state. With none presented the block
keeps all its state (60_exceptions.md R218; that this is a next state is log entry 4's choice). -/
def Obligations.StepRunsTheDecodedOperation : Prop :=
  ∀ s : State,
    (∀ op rest i, s.ops = op :: rest → decode op = .ok i → step s = exec i { s with ops := rest }) ∧
    (s.ops = [] → step s = .next s)

/-- 60_exceptions.md R206: a refused operation leaves the state unchanged but for the mark, and emits nothing. The four
reasons met here are the decoder's two and `ENCODE`'s two. That the machine then goes on, and that the reason is
kept beside the mark, are log entry 6's reading. Where an `ENCODE` is wrong in both its payload length and its space
operand, that the reason is the length's is the model's choice (log entry 10): R206 orders neither first. -/
def Obligations.RefusedOperationOnlySetsTheMark : Prop :=
  ∀ s : State,
    (∀ op rest r, s.ops = op :: rest → decode op = .error r →
      step s = .next { s with ops := rest, refused := true, lastRefusal := some r }) ∧
    (∀ id n payload space, payload.length ≠ n.toNat →
      exec (.encode id n payload space) s =
        .next { s with refused := true, lastRefusal := some .payloadLengthMismatch }) ∧
    (∀ id n payload space, payload.length = n.toNat → space.isSome ≠ s.params.txSpaceCheck →
      exec (.encode id n payload space) s =
        .next { s with refused := true, lastRefusal := some .spaceOperandMissing })

/-- 20_memory.md R62: presented operations take effect one after the other, in their order. -/
def Obligations.PresentedOperationsRunInOrder : Prop :=
  ∀ (is : List Instr) (rest : List Op) (s : State),
    s.ops = is.map encode ++ rest →
      runSteps is.length s = runInstrs is { s with ops := rest }

/-- 00_scope.md R5: none of the parameters can be changed by an operation. -/
def Obligations.NoStepChangesTheParameters : Prop :=
  ∀ s t : State, step s = .next t → t.params = s.params

/-- 10_state.md R35: the mark `refused` is set by a refusal and by nothing else, and no step clears it, not even one
that runs `RESET`; at launch it is 0. -/
def Obligations.RefusedMarkIsSticky : Prop :=
  (∀ s t : State, step s = .next t → s.refused = true → t.refused = true) ∧
  (∀ s t : State, step s = .next t → s.refused = false →
    (t.refused = true ↔ ∃ op rest, s.ops = op :: rest ∧
      ((∃ r, decode op = .error r) ∨
        ∃ id n payload space, decode op = .ok (.encode id n payload space) ∧
          (payload.length ≠ n.toNat ∨ space.isSome ≠ s.params.txSpaceCheck)))) ∧
  (∀ p : Params, (State.powerOn p).refused = false)

/-- 30_encoding.md R80 and R82: an operation emits exactly one output, of its own kind, unless it is refused, and then none.
`frame` is present exactly with FrameComplete, `disp` only with it, for a registered id and with the same frame. -/
def Obligations.EveryOperationEmitsOneOutput : Prop :=
  ∀ (i : Instr) (s t : State), exec i s = .next t →
    (i.wellFormed s.params = false ∧ t.outputs = s.outputs) ∨
    (i.wellFormed s.params = true ∧ ∃ o, emitted s t o ∧
      match i with
      | .rxByte _ => ∃ c f d, o = .rxOut c f d ∧ (f.isSome = true ↔ c = .frameComplete) ∧
          ∀ dd, d = some dd → f = some ⟨dd.id, dd.payload⟩ ∧ regTag s.reg dd.id = some dd.tag
      | .tick => o = .rxOut .awaitingMore none none ∨ o = .rxOut .timeout none none
      | .crcInit => ∃ v, o = .crcOut v
      | .crcFeed _ => ∃ v, o = .crcOut v
      | .crcUpdate _ _ => ∃ v, o = .crcOut v
      | .encode _ _ _ _ => o = .txOut .insufficientSpace [] ∨ ∃ bytes, o = .txOut .success bytes
      | .regSet _ _ => o = .ack
      | .cfgTimeout _ => o = .ack
      | .reset => o = .ack)

/-- 30_encoding.md R81: the numbers of the receive results, and which operation emits which; 6 and 7 are never
emitted. -/
def Obligations.ReceiveResultsAndTheirSources : Prop :=
  (RxCode.num .awaitingMore = 0 ∧ RxCode.num .frameComplete = 1 ∧ RxCode.num .badLength = 2 ∧
    RxCode.num .crcMismatch = 3 ∧ RxCode.num .badStopByte = 4 ∧ RxCode.num .timeout = 5) ∧
  ∀ (i : Instr) (s t : State) (c : RxCode) (f : Option Frame) (d : Option Dispatched), exec i s = .next t →
    emitted s t (.rxOut c f d) →
      (∃ b, i = .rxByte b ∧
        (c = .awaitingMore ∨
          (c = .frameComplete ∧ s.rxState = .readStop2 ∧ b = s.params.stop2) ∨
          (c = .badLength ∧ s.rxState = .readLenHigh) ∨
          (c = .crcMismatch ∧ s.rxState = .readCrc ∧ s.rxCrcPhase = true) ∨
          (c = .badStopByte ∧ (s.rxState = .readStop1 ∨ s.rxState = .readStop2)))) ∨
      (i = .tick ∧ (c = .awaitingMore ∨ c = .timeout))

/-! ### The CRC -/

/-- 40_crc.md R100: the byte enters at bits 15 to 8; eight times, shift left by one and, if bit 15 was 1, exclusive-or
with 0x1021. -/
def Obligations.CrcUpdateIsTheBitSerialLoop : Prop :=
  ∀ (c : Half) (b : Byte),
    crc16Upd c b =
      (fun v : Half => if v.getLsbD 15 = true then (v <<< 1) ^^^ 0x1021 else v <<< 1)^[8]
        (c ^^^ (b.zeroExtend 16 <<< 8))

/-- 40_crc.md R101: the update is `((C(x) + B(x)·x^8)·x^8) mod G(x)` over GF(2), and linear. -/
def Obligations.CrcUpdateIsPolynomialDivision : Prop :=
  (∀ (c : Half) (b : Byte),
    polyOf (crc16Upd c b) =
      ((polyOf c + polyOf b * Polynomial.X ^ 8) * Polynomial.X ^ 8) %ₘ crcGenerator) ∧
  (∀ (c₁ c₂ : Half) (b₁ b₂ : Byte),
    crc16Upd (c₁ ^^^ c₂) (b₁ ^^^ b₂) = crc16Upd c₁ b₁ ^^^ crc16Upd c₂ b₂)

/-- 40_crc.md R102: `crc16_compute` folds from 0x0000, first byte first, with no finishing step. -/
def Obligations.CrcComputeFoldsFromZero : Prop :=
  crc16Compute [] = 0x0000 ∧
  (∀ (s : List Byte) (b : Byte), crc16Compute (s ++ [b]) = crc16Upd (crc16Compute s) b)

/-- 40_crc.md R107: leading zero bytes do not show; a CRC appended high byte first gives 0, in wire order it does
not; the check value. (R107's second property, linearity, is in the statement about R101.) -/
def Obligations.CrcResidues : Prop :=
  (∀ s : List Byte, crc16Compute (0x00 :: s) = crc16Compute s) ∧
  (∀ s : List Byte, crc16Compute (s ++ [highByte (crc16Compute s), lowByte (crc16Compute s)]) = 0x0000) ∧
  crc16Compute [0x00, 0x01, 0x00, 0x00] = 0x3730 ∧
  crc16Compute [0x01, 0x00, 0x00] = 0x3730 ∧
  crc16Compute [0x31, 0x32, 0x33, 0x34, 0x35, 0x36, 0x37, 0x38, 0x39] = 0x31C3 ∧
  crc16Compute [0x31, 0x32, 0x33, 0x34, 0x35, 0x36, 0x37, 0x38, 0x39, 0xC3, 0x31] = 0xBAFE

/-- 40_crc.md R103: `CRC_UPDATE` emits the update of its operands and writes no state; its encoding. -/
def Obligations.CrcUpdateResult : Prop :=
  (∀ (c : Half) (b : Byte) (s : State),
    exec (.crcUpdate c b) s = .next { s with outputs := s.outputs ++ [.crcOut (crc16Upd c b)] }) ∧
  (∀ op : Op, opNibble op = 0x5 →
    (op.word.toNat / 2 ^ 24 % 2 ^ 4 ≠ 0 → decode op = .error .reservedBits) ∧
    (op.word.toNat / 2 ^ 24 % 2 ^ 4 = 0 →
      decode op = .ok (.crcUpdate (BitVec.ofNat 16 (op.word.toNat / 2 ^ 8)) (BitVec.ofNat 8 op.word.toNat)))) ∧
  crc16Upd 0x0000 0x00 = 0x0000 ∧ crc16Upd 0xFFFF 0xFF = 0xFF00 ∧ crc16Upd 0x0000 0x01 = 0x1021

/-- 40_crc.md R104: `CRC_INIT` sets the accumulator to 0x0000 and emits it; its encoding; twice is as once. -/
def Obligations.CrcInitResult : Prop :=
  (∀ s : State, exec .crcInit s = .next { s with crcAcc := 0x0000, outputs := s.outputs ++ [.crcOut 0x0000] }) ∧
  (∀ op : Op, opNibble op = 0x3 →
    (op.word ≠ 0x30000000 → decode op = .error .reservedBits) ∧
    (op.word = 0x30000000 → decode op = .ok .crcInit)) ∧
  (∀ s : State, runInstrs [.crcInit, .crcInit] s =
    .next { s with crcAcc := 0x0000, outputs := s.outputs ++ [.crcOut 0x0000, .crcOut 0x0000] })

/-- 40_crc.md R105: `CRC_FEED` folds its byte into the accumulator, whatever it holds, and emits the result; its
encoding. -/
def Obligations.CrcFeedResult : Prop :=
  (∀ (b : Byte) (s : State),
    exec (.crcFeed b) s =
      .next { s with crcAcc := crc16Upd s.crcAcc b, outputs := s.outputs ++ [.crcOut (crc16Upd s.crcAcc b)] }) ∧
  (∀ op : Op, opNibble op = 0x4 →
    (op.word.toNat / 2 ^ 8 % 2 ^ 20 ≠ 0 → decode op = .error .reservedBits) ∧
    (op.word.toNat / 2 ^ 8 % 2 ^ 20 = 0 → decode op = .ok (.crcFeed (BitVec.ofNat 8 op.word.toNat)))) ∧
  crc16Upd 0x0000 0x00 = 0x0000 ∧
  (∀ s : State, ∃ t,
    runInstrs (.crcInit :: [0x31, 0x32, 0x33, 0x34, 0x35, 0x36, 0x37, 0x38, 0x39].map .crcFeed) s = .next t ∧
      t.crcAcc = 0x31C3)

/-- 40_crc.md R106: the three generator operations have no failure mode, change nothing but `crc_acc`, and depend on
nothing but their operands and `crc_acc`. -/
def Obligations.CrcOperationsAreIsolated : Prop :=
  ∀ i : Instr, (i = .crcInit ∨ (∃ b, i = .crcFeed b) ∨ ∃ c b, i = .crcUpdate c b) →
    ∀ s u : State, s.crcAcc = u.crcAcc →
      ∃ acc v, exec i s = .next { s with crcAcc := acc, outputs := s.outputs ++ [.crcOut v] } ∧
        exec i u = .next { u with crcAcc := acc, outputs := u.outputs ++ [.crcOut v] }

/-- 30_encoding.md R84, `CRC_COMPUTE`: the expansion's last output is the CRC of the bytes, which the accumulator then
holds; nothing else changes but the outputs. -/
def Obligations.CrcComputeExpansion : Prop :=
  ∀ (bytes : List Byte) (s : State),
    ∃ outs, runInstrs (crcComputeOps bytes) s =
        .next { s with crcAcc := crc16Compute bytes, outputs := s.outputs ++ outs } ∧
      outs.length = bytes.length + 1 ∧ outs.getLast? = some (.crcOut (crc16Compute bytes))

/-! ### The receive framer -/

/-- 41_rx_framer.md R121: what `FramerReset()` writes, and that it writes nothing else; and 60_exceptions.md R200: raising an
error is that reset and the error's result, for each of the four kinds, with the result's number. -/
def Obligations.FramerResetAndErrorPath : Prop :=
  (∀ s : State, framerReset s =
    { s with rxState := .awaitStart1, rxCrcPhase := false, rxLen := 0, rxIdx := 0, rxCrc := 0x0000, rxBuf := [],
             tmoElapsed := 0, rxId := none, rxCrcLo := none }) ∧
  (∀ (s : State) (a : Nat), (framerReset s).rxBuf.read a = none) ∧
  (∀ s : State,
    raiseError .badLength s = { framerReset s with outputs := s.outputs ++ [.rxOut .badLength none none] } ∧
    raiseError .crcMismatch s = { framerReset s with outputs := s.outputs ++ [.rxOut .crcMismatch none none] } ∧
    raiseError .badStopByte s = { framerReset s with outputs := s.outputs ++ [.rxOut .badStopByte none none] } ∧
    raiseError .timeout s = { framerReset s with outputs := s.outputs ++ [.rxOut .timeout none none] }) ∧
  RxCode.num .badLength = 2 ∧ RxCode.num .crcMismatch = 3 ∧ RxCode.num .badStopByte = 4 ∧ RxCode.num .timeout = 5

/-- 41_rx_framer.md R120: the encoding of `RX_BYTE`; its common effect; its scope: the framer state and the output, never
`timeout_ms`, the registry or `crc_acc`. -/
def Obligations.RxByteScope : Prop :=
  (∀ op : Op, opNibble op = 0x1 →
    (op.word.toNat / 2 ^ 8 % 2 ^ 20 ≠ 0 → decode op = .error .reservedBits) ∧
    (op.word.toNat / 2 ^ 8 % 2 ^ 20 = 0 → decode op = .ok (.rxByte (BitVec.ofNat 8 op.word.toNat)))) ∧
  (∀ (b : Byte) (s t : State), exec (.rxByte b) s = .next t →
    t.tmoElapsed = 0 ∧ t.params = s.params ∧ t.timeoutMs = s.timeoutMs ∧ t.reg = s.reg ∧ t.crcAcc = s.crcAcc ∧
    t.refused = s.refused ∧ t.lastRefusal = s.lastRefusal ∧ t.ops = s.ops ∧
    ∃ c f d, emitted s t (.rxOut c f d))

/-- 41_rx_framer.md R122 to R125: the start markers, the ignored byte and the resync. -/
def Obligations.RxStartMarkers : Prop :=
  ∀ (b : Byte) (s : State),
    (s.rxState = .awaitStart1 → b = s.params.start1 →
      exec (.rxByte b) s = .next { s with
        tmoElapsed := 0, rxCrc := 0x0000, rxIdx := 0, rxBuf := [], rxState := .awaitStart2,
        outputs := s.outputs ++ [rxAwaiting] }) ∧
    (s.rxState = .awaitStart1 → b ≠ s.params.start1 →
      exec (.rxByte b) s = .next { s with tmoElapsed := 0, outputs := s.outputs ++ [rxAwaiting] }) ∧
    (s.rxState = .awaitStart2 → b = s.params.start2 →
      exec (.rxByte b) s = .next { s with
        tmoElapsed := 0, rxState := .readId, outputs := s.outputs ++ [rxAwaiting] }) ∧
    (s.rxState = .awaitStart2 → b ≠ s.params.start2 →
      exec (.rxByte b) s = .next { framerReset s with outputs := s.outputs ++ [rxAwaiting] })

/-- 41_rx_framer.md R126 to R130: the id, the length bytes, the empty payload, the payload that follows, and BadLength,
with `L = {b, rx_len[7:0]}`. -/
def Obligations.RxHeader : Prop :=
  ∀ (b : Byte) (s : State),
    (s.rxState = .readId →
      exec (.rxByte b) s = .next { s with
        tmoElapsed := 0, rxId := some b, rxCrc := crc16Upd s.rxCrc b, rxState := .readLenLow,
        outputs := s.outputs ++ [rxAwaiting] }) ∧
    (s.rxState = .readLenLow →
      exec (.rxByte b) s = .next { s with
        tmoElapsed := 0, rxLen := BitVec.ofNat 16 b.toNat, rxCrc := crc16Upd s.rxCrc b, rxState := .readLenHigh,
        outputs := s.outputs ++ [rxAwaiting] }) ∧
    (∀ L : Nat, L = b.toNat * 256 + s.rxLen.toNat % 256 → s.rxState = .readLenHigh →
      (0 < L → L ≤ s.params.rxCap.val →
        exec (.rxByte b) s = .next { s with
          tmoElapsed := 0, rxLen := BitVec.ofNat 16 L, rxCrc := crc16Upd s.rxCrc b, rxState := .readData,
          outputs := s.outputs ++ [rxAwaiting] }) ∧
      (L = 0 →
        exec (.rxByte b) s = .next { s with
          tmoElapsed := 0, rxLen := 0, rxCrc := crc16Upd s.rxCrc b, rxCrcPhase := false, rxState := .readCrc,
          outputs := s.outputs ++ [rxAwaiting] }) ∧
      (s.params.rxCap.val < L →
        exec (.rxByte b) s = .next { framerReset s with outputs := s.outputs ++ [.rxOut .badLength none none] }))

/-- 41_rx_framer.md R131: one payload byte is stored at `rx_idx`, folded and counted; the last one moves to `ReadCrc`.
The hypothesis that the cell exists follows from R39 (`rx_idx < rx_len <= RX_CAP`). -/
def Obligations.RxPayloadByte : Prop :=
  ∀ (b : Byte) (s : State), s.rxState = .readData → s.rxIdx.toNat < s.params.rxCap.val →
    ∃ buf : Memory,
      (∀ a : Nat, buf.read a = if a = s.rxIdx.toNat then some b else s.rxBuf.read a) ∧
      (s.rxIdx.toNat + 1 ≠ s.rxLen.toNat →
        exec (.rxByte b) s = .next { s with
          tmoElapsed := 0, rxBuf := buf, rxCrc := crc16Upd s.rxCrc b,
          rxIdx := BitVec.ofNat 16 (s.rxIdx.toNat + 1), outputs := s.outputs ++ [rxAwaiting] }) ∧
      (s.rxIdx.toNat + 1 = s.rxLen.toNat →
        exec (.rxByte b) s = .next { s with
          tmoElapsed := 0, rxBuf := buf, rxCrc := crc16Upd s.rxCrc b,
          rxIdx := BitVec.ofNat 16 (s.rxIdx.toNat + 1), rxState := .readCrc, rxCrcPhase := false,
          outputs := s.outputs ++ [rxAwaiting] })

/-- 41_rx_framer.md R132 to R134: the received CRC, low byte then high byte, compared whole. -/
def Obligations.RxCrcCheck : Prop :=
  ∀ (b : Byte) (s : State), s.rxState = .readCrc →
    (s.rxCrcPhase = false →
      exec (.rxByte b) s = .next { s with
        tmoElapsed := 0, rxCrcLo := some b, rxCrcPhase := true, outputs := s.outputs ++ [rxAwaiting] }) ∧
    (∀ lo : Byte, s.rxCrcPhase = true → s.rxCrcLo = some lo →
      (b.toNat * 256 + lo.toNat = s.rxCrc.toNat →
        exec (.rxByte b) s = .next { s with
          tmoElapsed := 0, rxCrcPhase := false, rxState := .readStop1, outputs := s.outputs ++ [rxAwaiting] }) ∧
      (b.toNat * 256 + lo.toNat ≠ s.rxCrc.toNat →
        exec (.rxByte b) s =
          .next { framerReset s with outputs := s.outputs ++ [.rxOut .crcMismatch none none] }))

/-- 41_rx_framer.md R135, R136 and R138: the stop markers, and BadStopByte at either of them. -/
def Obligations.RxStopMarkers : Prop :=
  ∀ (b : Byte) (s : State),
    (s.rxState = .readStop1 → b = s.params.stop1 →
      exec (.rxByte b) s = .next { s with
        tmoElapsed := 0, rxState := .readStop2, outputs := s.outputs ++ [rxAwaiting] }) ∧
    (s.rxState = .readStop1 → b ≠ s.params.stop1 →
      exec (.rxByte b) s = .next { framerReset s with outputs := s.outputs ++ [.rxOut .badStopByte none none] }) ∧
    (s.rxState = .readStop2 → b ≠ s.params.stop2 →
      exec (.rxByte b) s = .next { framerReset s with outputs := s.outputs ++ [.rxOut .badStopByte none none] })

/-- 41_rx_framer.md R137, with 42_dispatch.md R161 and R162: the second stop marker completes the frame; the payload is
read out before the reset of the same step, and dispatched exactly when the id is registered. -/
def Obligations.RxFrameCompletes : Prop :=
  ∀ (b id : Byte) (payload : List Byte) (s : State),
    s.rxState = .readStop2 → b = s.params.stop2 → s.rxId = some id → s.rxLen.toNat = payload.length →
    bufferHolds s payload →
      (∀ tag, regTag s.reg id = some tag →
        exec (.rxByte b) s = .next { framerReset s with
          outputs := s.outputs ++ [.rxOut .frameComplete (some ⟨id, payload⟩) (some ⟨id, tag, payload⟩)] }) ∧
      (regTag s.reg id = none →
        exec (.rxByte b) s = .next { framerReset s with
          outputs := s.outputs ++ [.rxOut .frameComplete (some ⟨id, payload⟩) none] })

/-- What `RX_BYTE` does to each byte of the buffer: in `ReadData` the cell at `rx_idx` takes the byte and every other
cell is unchanged; an accepted `START1` and every `FramerReset()` clear all cells; every other form stores nothing. -/
def Obligations.RxByteBufferFrame : Prop :=
  ∀ (b : Byte) (s t : State), exec (.rxByte b) s = .next t →
    (s.rxState = .readData →
      ∀ a : Nat, t.rxBuf.read a = if a = s.rxIdx.toNat then some b else s.rxBuf.read a) ∧
    (s.rxState = .awaitStart1 → b = s.params.start1 → ∀ a : Nat, t.rxBuf.read a = none) ∧
    (s.rxState ≠ .awaitStart1 → t.rxState = .awaitStart1 → ∀ a : Nat, t.rxBuf.read a = none) ∧
    (s.rxState ≠ .readData → ¬(s.rxState = .awaitStart1 ∧ b = s.params.start1) →
      ¬(s.rxState ≠ .awaitStart1 ∧ t.rxState = .awaitStart1) → ∀ a : Nat, t.rxBuf.read a = s.rxBuf.read a)

/-- 41_rx_framer.md R139 to R141: `TICK`, idle, before the limit, and past it. -/
def Obligations.TickResult : Prop :=
  (∀ op : Op, opNibble op = 0x2 →
    (op.word ≠ 0x20000000 → decode op = .error .reservedBits) ∧ (op.word = 0x20000000 → decode op = .ok .tick)) ∧
  (∀ s : State,
    (s.rxState = .awaitStart1 → exec .tick s = .next { s with outputs := s.outputs ++ [rxAwaiting] }) ∧
    (s.rxState ≠ .awaitStart1 → s.tmoElapsed.toNat + 1 ≤ s.timeoutMs.toNat →
      exec .tick s = .next { s with
        tmoElapsed := BitVec.ofNat 16 (s.tmoElapsed.toNat + 1), outputs := s.outputs ++ [rxAwaiting] }) ∧
    (s.rxState ≠ .awaitStart1 → s.timeoutMs.toNat < s.tmoElapsed.toNat + 1 →
      exec .tick s = .next { framerReset s with outputs := s.outputs ++ [.rxOut .timeout none none] }))

/-- 41_rx_framer.md R142, and `TICKS k` of 30_encoding.md R84: a silence of k ticks after a byte emits AwaitingMore while
it is not longer than `timeout_ms`, then exactly one Timeout, then AwaitingMore again. -/
def Obligations.SilenceYieldsOneTimeout : Prop :=
  ∀ (s : State) (k : Nat), s.rxState ≠ .awaitStart1 → s.tmoElapsed = 0 →
    (k ≤ s.timeoutMs.toNat →
      runInstrs (ticksOps k) s = .next { s with
        tmoElapsed := BitVec.ofNat 16 k, outputs := s.outputs ++ List.replicate k rxAwaiting }) ∧
    (s.timeoutMs.toNat < k →
      runInstrs (ticksOps k) s = .next { framerReset s with
        outputs := s.outputs ++ List.replicate s.timeoutMs.toNat rxAwaiting ++ [.rxOut .timeout none none] ++
          List.replicate (k - s.timeoutMs.toNat - 1) rxAwaiting })

/-- 41_rx_framer.md R145: ticks before a byte, too few to fire the timeout, do not change what the byte does. -/
def Obligations.TicksBetweenBytesDoNotMatter : Prop :=
  ∀ (s t : State) (k : Nat) (b : Byte),
    (s.rxState = .awaitStart1 ∨ s.tmoElapsed.toNat + k ≤ s.timeoutMs.toNat) →
    exec (.rxByte b) s = .next t →
      ∃ o, emitted s t o ∧
        runInstrs (ticksOps k ++ [.rxByte b]) s =
          .next { t with outputs := s.outputs ++ List.replicate k rxAwaiting ++ [o] }

/-- 60_exceptions.md R202 to R205: which operation, in which state and on which condition, raises each error; the stop
bytes are reached only after a good CRC. -/
def Obligations.ErrorsAreRaisedOnlyByTheirRules : Prop :=
  (∀ (i : Instr) (s t : State) (f : Option Frame) (d : Option Dispatched), exec i s = .next t →
    (emitted s t (.rxOut .badLength f d) →
      ∃ b, i = .rxByte b ∧ s.rxState = .readLenHigh ∧
        s.params.rxCap.val < b.toNat * 256 + s.rxLen.toNat % 256) ∧
    (emitted s t (.rxOut .crcMismatch f d) →
      ∃ b lo, i = .rxByte b ∧ s.rxState = .readCrc ∧ s.rxCrcPhase = true ∧ s.rxCrcLo = some lo ∧
        b.toNat * 256 + lo.toNat ≠ s.rxCrc.toNat) ∧
    (emitted s t (.rxOut .badStopByte f d) →
      ∃ b, i = .rxByte b ∧ ((s.rxState = .readStop1 ∧ b ≠ s.params.stop1) ∨
        (s.rxState = .readStop2 ∧ b ≠ s.params.stop2))) ∧
    (emitted s t (.rxOut .timeout f d) →
      i = .tick ∧ s.rxState ≠ .awaitStart1 ∧ s.timeoutMs.toNat < s.tmoElapsed.toNat + 1)) ∧
  (∀ (i : Instr) (s t : State), exec i s = .next t →
    (t.rxState = .readStop1 → s.rxState ≠ .readStop1 →
      ∃ b lo, i = .rxByte b ∧ s.rxState = .readCrc ∧ s.rxCrcPhase = true ∧ s.rxCrcLo = some lo ∧
        b.toNat * 256 + lo.toNat = s.rxCrc.toNat) ∧
    (t.rxState = .readStop2 → s.rxState ≠ .readStop2 →
      s.rxState = .readStop1 ∧ i = .rxByte s.params.stop1))

/-- 41_rx_framer.md R144, 60_exceptions.md R211: no partial frame survives an error: an error step leaves exactly the reset
framer, and the next `RX_BYTE` or `TICK` reports no error; a `START1` begins a frame. -/
def Obligations.ErrorLeavesNoPartialFrame : Prop :=
  ∀ (i : Instr) (s t : State) (k : LinkError), exec i s = .next t →
    emitted s t (.rxOut k.code none none) →
      t = { framerReset s with outputs := t.outputs } ∧
      exec .tick t = .next { t with outputs := t.outputs ++ [rxAwaiting] } ∧
      ∀ b : Byte, exec (.rxByte b) t = .next { t with
        rxState := if b = t.params.start1 then .awaitStart2 else .awaitStart1,
        outputs := t.outputs ++ [rxAwaiting] }

/-- 60_exceptions.md R209.3, 70_reset_and_hazards.md R238: a tick that would fire, ordered before a byte, times the frame
out and the byte is read in `AwaitStart1`; ordered after it, it does not fire. Stated for a positive `timeout_ms`:
with 0 the first tick after a byte fires (44_control.md R180). -/
def Obligations.TickAndByteInEitherOrder : Prop :=
  ∀ (s t : State) (b : Byte), s.rxState ≠ .awaitStart1 → s.timeoutMs.toNat < s.tmoElapsed.toNat + 1 →
    0 < s.timeoutMs.toNat → exec (.rxByte b) s = .next t →
    runInstrs [.tick, .rxByte b] s = .next { framerReset s with
      rxState := if b = s.params.start1 then .awaitStart2 else .awaitStart1,
      outputs := s.outputs ++ [.rxOut .timeout none none, rxAwaiting] } ∧
    runInstrs [.rxByte b, .tick] s = .next { t with
      tmoElapsed := if t.rxState = .awaitStart1 then 0 else 1, outputs := t.outputs ++ [rxAwaiting] }

/-! ### Registry and dispatch -/

/-- 42_dispatch.md R160: `REG_SET` writes one whole entry, the last write wins, every other entry is unchanged; its
encoding. -/
def Obligations.RegSetResult : Prop :=
  (∀ (id : Byte) (tag : Tag) (s : State), ∃ reg : Registry,
    exec (.regSet id tag) s = .next { s with reg := reg, outputs := s.outputs ++ [.ack] } ∧
    ∀ x : Byte, regTag reg x = if x = id then some tag else regTag s.reg x) ∧
  (∀ op : Op, opNibble op = 0x7 →
    (op.word.toNat / 2 ^ 24 % 2 ^ 4 ≠ 0 → decode op = .error .reservedBits) ∧
    (op.word.toNat / 2 ^ 24 % 2 ^ 4 = 0 →
      decode op = .ok (.regSet (BitVec.ofNat 8 (op.word.toNat / 2 ^ 16)) (BitVec.ofNat 16 op.word.toNat)))) ∧
  (∀ (i : Instr) (s t : State) (id : Byte), exec i s = .next t → i ≠ .reset →
    regValid s.reg id = true → regValid t.reg id = true)

/-- From 42_dispatch.md R161: the dispatch decision of its pseudocode, and that a dispatch comes only with FrameComplete,
from the second stop marker, with the tag registered at the start of that step. That the frame then passed the
length, CRC and first stop-byte checks is in `ErrorsAreRaisedOnlyByTheirRules` and `CompletedFrameWasOnTheWire`. -/
def Obligations.OnlyCompletedFramesAreDispatched : Prop :=
  (∀ (s : State) (id : Byte) (payload : List Byte),
    (∀ tag, regTag s.reg id = some tag → dispatchOf s id payload = some ⟨id, tag, payload⟩) ∧
    (regTag s.reg id = none → dispatchOf s id payload = none)) ∧
  (∀ (i : Instr) (s t : State) (c : RxCode) (f : Option Frame) (d : Dispatched), exec i s = .next t →
    emitted s t (.rxOut c f (some d)) →
      i = .rxByte s.params.stop2 ∧ s.rxState = .readStop2 ∧ c = .frameComplete ∧ f = some ⟨d.id, d.payload⟩ ∧
      s.rxId = some d.id ∧ regTag s.reg d.id = some d.tag)

/-! ### The encoder -/

/-- 43_tx_encoder.md R170: `ENCODE` with well-formed operands emits the frame of 30_encoding.md R70, or InsufficientSpace and
nothing, and writes no state; its encoding. With a payload of another length it is refused: that this is a next state
and records its reason is log entry 6's reading, and that the length's reason is named also where the space operand
is wrong too is the model's choice (log entry 10). -/
def Obligations.EncodeResult : Prop :=
  (∀ (id : Byte) (n : Half) (payload : List Byte) (space : Option Nat) (s : State),
    payload.length = n.toNat → space.isSome = s.params.txSpaceCheck →
    ∀ (lo hi : Byte) (c : Half), lo = BitVec.ofNat 8 n.toNat → hi = BitVec.ofNat 8 (n.toNat / 256) →
      c = crc16Compute ([id, lo, hi] ++ payload) →
      (∀ k, space = some k → k < 9 + n.toNat →
        exec (.encode id n payload space) s =
          .next { s with outputs := s.outputs ++ [.txOut .insufficientSpace []] }) ∧
      ((∀ k, space = some k → 9 + n.toNat ≤ k) →
        exec (.encode id n payload space) s =
          .next { s with outputs := s.outputs ++ [.txOut .success
            ([s.params.start1, s.params.start2, id, lo, hi] ++ payload ++
              [BitVec.ofNat 8 c.toNat, BitVec.ofNat 8 (c.toNat / 256), s.params.stop1, s.params.stop2])] })) ∧
  (∀ (id : Byte) (n : Half) (payload : List Byte) (space : Option Nat) (s : State), payload.length ≠ n.toNat →
    exec (.encode id n payload space) s =
      .next { s with refused := true, lastRefusal := some .payloadLengthMismatch }) ∧
  (∀ op : Op, opNibble op = 0x6 →
    (op.word.toNat / 2 ^ 24 % 2 ^ 4 ≠ 0 → decode op = .error .reservedBits) ∧
    (op.word.toNat / 2 ^ 24 % 2 ^ 4 = 0 → decode op = .ok
      (.encode (BitVec.ofNat 8 (op.word.toNat / 2 ^ 16)) (BitVec.ofNat 16 op.word.toNat) op.payload op.space)))

/-- 43_tx_encoder.md R171: a failed space check emits no byte; without the check every well-formed `ENCODE` succeeds; either
way nothing is kept for a retry. -/
def Obligations.SpaceCheckIsAllOrNothing : Prop :=
  ∀ (id : Byte) (n : Half) (payload : List Byte) (space : Option Nat) (s : State),
    (Instr.encode id n payload space).wellFormed s.params = true →
      ∃ c bytes, exec (.encode id n payload space) s =
          .next { s with outputs := s.outputs ++ [.txOut c bytes] } ∧
        (c = .insufficientSpace → bytes = []) ∧
        (c = .success → bytes.length = 9 + payload.length) ∧
        (c = .insufficientSpace ↔ s.params.txSpaceCheck = true ∧ ∃ k, space = some k ∧ k < 9 + payload.length) ∧
        (s.params.txSpaceCheck = false → c = .success)

/-- 43_tx_encoder.md R172: the encoder does not look at `RX_CAP`, and a framer with the same parameters rejects a longer
frame with BadLength at its fifth byte, before any payload byte. -/
def Obligations.OverlongFrameIsRejectedByItsReceiver : Prop :=
  ∀ (id : Byte) (n : Half) (payload : List Byte) (s : State),
    s.rxState = .awaitStart1 → payload.length = n.toNat → s.params.rxCap.val < payload.length →
    s.params.txSpaceCheck = false →
      ∃ bytes, exec (.encode id n payload none) s =
          .next { s with outputs := s.outputs ++ [.txOut .success bytes] } ∧
        runInstrs (rxStreamOps (bytes.take 5)) s = .next { framerReset s with
          outputs := s.outputs ++ [rxAwaiting, rxAwaiting, rxAwaiting, rxAwaiting, .rxOut .badLength none none] }

/-- 20_memory.md R65: `ENCODE` touches neither the framer state nor the configuration, and its output depends on neither. -/
def Obligations.EncodeIsIndependentOfTheState : Prop :=
  ∀ (id : Byte) (n : Half) (payload : List Byte) (space : Option Nat) (s u : State), s.params = u.params →
    (Instr.encode id n payload space).wellFormed s.params = true →
      ∃ o, exec (.encode id n payload space) s = .next { s with outputs := s.outputs ++ [o] } ∧
        exec (.encode id n payload space) u = .next { u with outputs := u.outputs ++ [o] }

/-- 43_tx_encoder.md R175: the bytes of a successful `ENCODE` of at most `RX_CAP` payload bytes, fed in order to a framer in
`AwaitStart1` with the same parameters, with at most `timeout_ms` ticks between consecutive bytes (and any number
before the first), give AwaitingMore for every byte and tick but the last byte, and FrameComplete with that id and
payload for the last; the framer is left reset. -/
def Obligations.EncodedFrameDecodes : Prop :=
  ∀ (id : Byte) (n : Half) (payload bytes : List Byte) (space : Option Nat) (s₀ t₀ s : State) (gaps : List Nat),
    exec (.encode id n payload space) s₀ = .next t₀ → emitted s₀ t₀ (.txOut .success bytes) →
    s.params = s₀.params → payload.length ≤ s.params.rxCap.val → s.rxState = .awaitStart1 →
    gaps.length = bytes.length → (∀ g ∈ gaps.tail, g ≤ s.timeoutMs.toNat) →
      runInstrs (pacedBytes (gaps.zip bytes)) s = .next { framerReset s with
        outputs := s.outputs ++ List.replicate (gaps.sum + (8 + payload.length)) rxAwaiting ++
          [.rxOut .frameComplete (some ⟨id, payload⟩) (dispatchOf s id payload)] }

/-- The converse: when a stream of bytes fed to a framer in `AwaitStart1` ends in FrameComplete, its last bytes are
exactly the wire frame (30_encoding.md R70) of the reported id and payload, whose length is within `RX_CAP`. -/
def Obligations.CompletedFrameWasOnTheWire : Prop :=
  ∀ (bytes : List Byte) (s t : State) (id : Byte) (payload : List Byte) (d : Option Dispatched)
    (outs : List Output),
    s.rxState = .awaitStart1 → runInstrs (rxStreamOps bytes) s = .next t →
    t.outputs = s.outputs ++ outs → outs.getLast? = some (.rxOut .frameComplete (some ⟨id, payload⟩) d) →
      payload.length ≤ s.params.rxCap.val ∧
      ∃ before, bytes = before ++ frameBytes s.params id (BitVec.ofNat 16 payload.length) payload

/-! ### Control, reset, isolation -/

/-- 44_control.md R180: `CFG_TIMEOUT` writes `timeout_ms` alone; lowered below the elapsed count, the next tick in a frame
fires; raised, the frame goes on; 0 fires on the first tick; its encoding. -/
def Obligations.CfgTimeoutResult : Prop :=
  (∀ (t : Half) (s : State),
    exec (.cfgTimeout t) s = .next { s with timeoutMs := t, outputs := s.outputs ++ [.ack] }) ∧
  (∀ op : Op, opNibble op = 0x8 →
    (op.word.toNat / 2 ^ 16 % 2 ^ 12 ≠ 0 → decode op = .error .reservedBits) ∧
    (op.word.toNat / 2 ^ 16 % 2 ^ 12 = 0 → decode op = .ok (.cfgTimeout (BitVec.ofNat 16 op.word.toNat)))) ∧
  (∀ (t : Half) (s : State), s.rxState ≠ .awaitStart1 →
    (t.toNat < s.tmoElapsed.toNat ∨ t = 0 → runInstrs [.cfgTimeout t, .tick] s = .next { framerReset s with
      timeoutMs := t, outputs := s.outputs ++ [.ack, .rxOut .timeout none none] }) ∧
    (s.tmoElapsed.toNat < t.toNat → runInstrs [.cfgTimeout t, .tick] s = .next { s with
      timeoutMs := t, tmoElapsed := BitVec.ofNat 16 (s.tmoElapsed.toNat + 1),
      outputs := s.outputs ++ [.ack, rxAwaiting] }))

/-- 44_control.md R181 and 70_reset_and_hazards.md R230: `RESET` puts every field of the spec at its power-on value but
`refused`, and emits Ack; its encoding. -/
def Obligations.ResetResult : Prop :=
  (∀ s : State,
    exec .reset s = .next { framerReset s with
      timeoutMs := s.params.timeoutReset, reg := [], crcAcc := 0x0000, outputs := s.outputs ++ [.ack] } ∧
    exec .reset s = .next { State.powerOn s.params with
      refused := s.refused, lastRefusal := s.lastRefusal, ops := s.ops, outputs := s.outputs ++ [.ack] }) ∧
  (∀ id : Byte, regValid [] id = false ∧ regTag [] id = none) ∧
  (∀ op : Op, opNibble op = 0xF →
    (op.word ≠ 0xF0000000 → decode op = .error .reservedBits) ∧ (op.word = 0xF0000000 → decode op = .ok .reset))

/-- 10_state.md R41: the reset values. (The model's own fields, and the parameters, are log entries 1, 3, 5 and 6.) -/
def Obligations.ResetValues : Prop :=
  State.reset.rxState = .awaitStart1 ∧ State.reset.rxCrcPhase = false ∧ State.reset.rxId = none ∧
  State.reset.rxLen = 0 ∧ State.reset.rxIdx = 0 ∧ State.reset.rxCrc = 0x0000 ∧ State.reset.rxCrcLo = none ∧
  (∀ a : Nat, State.reset.rxBuf.read a = none) ∧ State.reset.tmoElapsed = 0 ∧ State.reset.timeoutMs = 300 ∧
  (∀ id : Byte, regValid State.reset.reg id = false ∧ regTag State.reset.reg id = none) ∧
  State.reset.crcAcc = 0x0000 ∧ State.reset.refused = false ∧
  (∀ s t : State, exec .reset s = .next t → t.refused = s.refused)

/-- 20_memory.md R65, frames: no operation but `RX_BYTE`, `TICK` and `RESET` touches the framer state; only
`CFG_TIMEOUT` and `RESET` touch `timeout_ms`; only `REG_SET` and `RESET` the registry; only `CRC_INIT`, `CRC_FEED` and
`RESET` the accumulator. -/
def Obligations.OperationsKeepToTheirRegion : Prop :=
  ∀ (i : Instr) (s t : State), exec i s = .next t →
    ((∀ b, i ≠ .rxByte b) → i ≠ .tick → i ≠ .reset → sameFramer s t) ∧
    ((∀ v, i ≠ .cfgTimeout v) → i ≠ .reset → t.timeoutMs = s.timeoutMs) ∧
    ((∀ id tag, i ≠ .regSet id tag) → i ≠ .reset → t.reg = s.reg) ∧
    (i ≠ .crcInit → (∀ b, i ≠ .crcFeed b) → i ≠ .reset → t.crcAcc = s.crcAcc) ∧
    t.params = s.params ∧ t.ops = s.ops

/-! ### Invariants -/

/-- 10_state.md R39: every step keeps the invariants. -/
def Obligations.EveryStepKeepsTheInvariants : Prop :=
  ∀ s t : State, Inv s → step s = .next t → Inv t

/-- The invariants hold at power-on, for every choice of the parameters, and so at reset. -/
def Obligations.InvariantsHoldAtPowerOn : Prop :=
  (∀ p : Params, p.wf → Inv (State.powerOn p)) ∧ Inv State.reset

/-- From a state that meets the invariants exec answers a next state for every operation and so does step: no fault is
met (20_memory.md R61; that no rule reads what holds no value, 60_exceptions.md R206). Two kinds of next state here are
the model's reading, not the spec's words: that of a refused operation, a reserved word or an ill-formed `ENCODE`, which
by R206 has no step (log entry 6), and that of a step with no operation presented (log entry 4). -/
def Obligations.NoFaultUnderTheInvariants : Prop :=
  ∀ s : State, Inv s → (∀ i : Instr, ∃ t, exec i s = .next t) ∧ ∃ t, step s = .next t

/-- 41_rx_framer.md R143: every step keeps it true that the running CRC is that of exactly the id, the length bytes and
the payload bytes received so far; and it is true at power-on. -/
def Obligations.RunningCrcCoversTheFrame : Prop :=
  (∀ s t : State, Inv s → CrcCoversFrame s → step s = .next t → CrcCoversFrame t) ∧
  (∀ p : Params, CrcCoversFrame (State.powerOn p))

/-- 10_state.md R39.5: after every `RX_BYTE` and `TICK` the elapsed count does not exceed `timeout_ms`. -/
def Obligations.ElapsedStaysWithinTheTimeout : Prop :=
  ∀ s : State, Inv s →
    (∀ b : Byte, ∃ t, exec (.rxByte b) s = .next t ∧ t.tmoElapsed.toNat ≤ t.timeoutMs.toNat) ∧
    (∃ t, exec .tick s = .next t ∧ t.tmoElapsed.toNat ≤ t.timeoutMs.toNat)

/-- Four cases in which a state that breaks the invariants stops. Three read what holds no value (10_state.md R29,
60_exceptions.md R206; log entry 7): the absent CRC low byte in `ReadCrc`, the absent id in `ReadStop2`, and there
buffer cell 0, absent, of a payload that is not empty. The fourth is a payload byte in `ReadData` whose index is at or
above `RX_CAP`, a cell that does not exist (20_memory.md R50; log entry 8). Nothing is said of a later absent cell or
of `rx_len` above `RX_CAP` in `ReadStop2`. -/
def Obligations.BrokenInvariantsFault : Prop :=
  ∀ (b : Byte) (s : State),
    (s.rxState = .readCrc → s.rxCrcPhase = true → s.rxCrcLo = none →
      exec (.rxByte b) s = .fault .readOfNoValue) ∧
    (s.rxState = .readStop2 → b = s.params.stop2 → s.rxId = none →
      exec (.rxByte b) s = .fault .readOfNoValue) ∧
    (s.rxState = .readStop2 → b = s.params.stop2 → 0 < s.rxLen.toNat → 0 < s.params.rxCap.val →
      s.rxBuf.read 0 = none → exec (.rxByte b) s = .fault .readOfNoValue) ∧
    (s.rxState = .readData → s.params.rxCap.val ≤ s.rxIdx.toNat →
      exec (.rxByte b) s = .fault .bufferIndexOutOfRange)
end

