-- ==== Sys2Proof/Laws/Cells.lean ====
section
/-! SUPPORT. The laws of the two stores: a read after a write, the canonical form, reading a range. -/

namespace Sys2Proof.Machine

variable {β : Type}

@[simp] theorem readCell_nil (a : Nat) : readCell ([] : List (Nat × β)) a = none := rfl

/-- A write changes the cell it writes and no other. -/
theorem readCell_writeCell (m : List (Nat × β)) (a : Nat) (v : β) (x : Nat) :
    readCell (writeCell m a v) x = if x = a then some v else readCell m x := by
  induction m with
  | nil => simp [writeCell, readCell, noValue, eq_comm]
  | cons c rest ih =>
    unfold writeCell
    split
    · simp [readCell, eq_comm (a := a)]
    · split
      · next h => subst h; by_cases hx : x = c.1 <;> simp [readCell, hx, eq_comm]
      · next h =>
        by_cases hx : c.1 = x
        · subst hx; simp [readCell]; intro e; exact absurd e.symm h
        · simp [readCell, hx, ih]

theorem rising_cons (c : Nat × β) (m : List (Nat × β)) :
    rising (c :: m) = true ↔ (∀ d ∈ m, c.1 < d.1) ∧ rising m = true := by
  simp [rising, List.pairwise_cons]

theorem mem_writeCell {m : List (Nat × β)} {a : Nat} {v : β} {d : Nat × β} (h : d ∈ writeCell m a v) :
    d = (a, v) ∨ d ∈ m := by
  induction m with
  | nil => simpa [writeCell] using h
  | cons c rest ih =>
    unfold writeCell at h
    split at h
    · simpa using h
    · split at h
      · rcases List.mem_cons.1 h with h | h
        · exact .inl h
        · exact .inr (List.mem_cons_of_mem _ h)
      · rcases List.mem_cons.1 h with h | h
        · exact .inr (h ▸ List.mem_cons_self ..)
        · exact (ih h).imp id (List.mem_cons_of_mem _)

/-- A write keeps the canonical form. -/
theorem rising_writeCell {m : List (Nat × β)} (h : rising m = true) (a : Nat) (v : β) :
    rising (writeCell m a v) = true := by
  induction m with
  | nil => simp [writeCell, rising]
  | cons c rest ih =>
    obtain ⟨hc, hr⟩ := (rising_cons c rest).1 h
    unfold writeCell
    split
    · next lt =>
      refine (rising_cons _ _).2 ⟨fun d hd => ?_, h⟩
      rcases List.mem_cons.1 hd with rfl | hd
      · exact lt
      · exact Nat.lt_trans lt (hc d hd)
    · split
      · next eq => exact (rising_cons _ _).2 ⟨fun d hd => eq ▸ hc d hd, hr⟩
      · next nlt ne =>
        refine (rising_cons _ _).2 ⟨fun d hd => ?_, ih hr⟩
        rcases mem_writeCell hd with rfl | hd
        · show c.1 < a; omega
        · exact hc d hd

/-! ### The receive buffer -/

@[simp] theorem Memory.read_nil (a : Nat) : Memory.read [] a = none := rfl

@[simp] theorem Memory.read_cleared (a : Nat) : Memory.cleared.read a = none := rfl

@[simp] theorem Memory.wf_nil : Memory.wf [] = true := rfl

@[simp] theorem Memory.wf_cleared : Memory.cleared.wf = true := rfl

theorem Memory.read_write (m : Memory) (a : Nat) (b : Byte) (x : Nat) :
    (m.write a b).read x = if x = a then some b else m.read x :=
  readCell_writeCell m a b x

theorem Memory.wf_write {m : Memory} (h : m.wf = true) (a : Nat) (b : Byte) : (m.write a b).wf = true :=
  rising_writeCell h a b

/-- All a buffer write can do. -/
theorem bufWrite_cases (p : Params) (m : Memory) (i : Nat) (b : Byte) :
    (i < p.rxCap.val ∧ bufWrite p m i b = .ok (m.write i b)) ∨
    (p.rxCap.val ≤ i ∧ bufWrite p m i b = .error .bufferIndexOutOfRange) := by
  unfold bufWrite
  split
  · exact .inl ⟨‹_›, rfl⟩
  · exact .inr ⟨by omega, rfl⟩

theorem bufWrite_ok {p : Params} {i : Nat} (h : i < p.rxCap.val) (m : Memory) (b : Byte) :
    bufWrite p m i b = .ok (m.write i b) := by
  simp [bufWrite, h]

theorem bufRead_ok {p : Params} {m : Memory} {i : Nat} {b : Byte} (h : i < p.rxCap.val) (hb : m.read i = some b) :
    bufRead p m i = .ok b := by
  simp [bufRead, h, hb]

theorem bufRead_eq_ok {p : Params} {m : Memory} {i : Nat} {b : Byte} :
    bufRead p m i = .ok b ↔ i < p.rxCap.val ∧ m.read i = some b := by
  unfold bufRead
  split
  · cases h : m.read i <;> simp [*]
  · simp [*]

/-- A range reads as `bs` exactly when it is as long as `bs`, lies below `RX_CAP` where it is not empty, and each
of its cells holds the byte of `bs` at its place. -/
theorem bufReadFrom_eq_ok {p : Params} {m : Memory} {n : Nat} {bs : List Byte} {i : Nat} :
    bufReadFrom p m i n = .ok bs ↔
      bs.length = n ∧ ∀ (k : Nat) (h : k < bs.length), i + k < p.rxCap.val ∧ m.read (i + k) = some bs[k] := by
  induction n generalizing i bs with
  | zero =>
    simp only [bufReadFrom, Except.ok.injEq, List.length_eq_zero_iff]
    constructor
    · rintro rfl; simp
    · rintro ⟨rfl, -⟩; rfl
  | succ n ih =>
    unfold bufReadFrom
    constructor
    · intro h
      split at h
      · cases h
      · next b hb =>
        split at h
        · cases h
        · next rest hr =>
          cases h
          obtain ⟨hl, hc⟩ := ih.1 hr
          refine ⟨by simp [hl], fun k hk => ?_⟩
          cases k with
          | zero => simpa using bufRead_eq_ok.1 hb
          | succ k =>
            have := hc k (by simpa using hk)
            simpa [Nat.add_assoc, Nat.add_comm 1] using this
    · rintro ⟨hl, hc⟩
      cases bs with
      | nil => simp at hl
      | cons b rest =>
        have h0 := hc 0 (by simp)
        have hr : bufReadFrom p m (i + 1) n = .ok rest := by
          refine ih.2 ⟨by simpa using hl, fun k hk => ?_⟩
          have := hc (k + 1) (by simpa using hk)
          simpa [Nat.add_assoc, Nat.add_comm 1] using this
        have hb : bufRead p m i = .ok b := by simpa using bufRead_ok h0.1 (b := b) (by simpa using h0.2)
        simp only [hb, hr]

/-- A range all of whose cells exist and hold values can be read. -/
theorem bufReadFrom_total {p : Params} {m : Memory} {n i : Nat}
    (h : ∀ k, k < n → i + k < p.rxCap.val ∧ (m.read (i + k)).isSome = true) :
    ∃ bs, bufReadFrom p m i n = .ok bs := by
  induction n generalizing i with
  | zero => exact ⟨[], rfl⟩
  | succ n ih =>
    obtain ⟨h0, h0'⟩ := h 0 (by omega)
    obtain ⟨b, hb⟩ := Option.isSome_iff_exists.1 h0'
    obtain ⟨bs, hbs⟩ := ih (i := i + 1) fun k hk => by
      have := h (k + 1) (by omega)
      simpa [Nat.add_assoc, Nat.add_comm 1] using this
    have hr : bufRead p m i = .ok b := by simpa using bufRead_ok h0 hb
    exact ⟨b :: bs, by simp only [bufReadFrom, hr, hbs]⟩

/-- Storing the next byte of a range extends what the range reads as. -/
theorem bufReadFrom_write_next {p : Params} {m : Memory} {n : Nat} {bs : List Byte} (b : Byte)
    (hn : n < p.rxCap.val) (h : bufReadFrom p m 0 n = .ok bs) :
    bufReadFrom p (m.write n b) 0 (n + 1) = .ok (bs ++ [b]) := by
  obtain ⟨hl, hc⟩ := bufReadFrom_eq_ok.1 h
  refine bufReadFrom_eq_ok.2 ⟨by simp [hl], fun k hk => ?_⟩
  simp only [List.length_append, List.length_cons, List.length_nil] at hk
  rw [Memory.read_write]
  by_cases hkn : k = n
  · subst hkn; subst hl; simpa using hn
  · have hk' : k < bs.length := by omega
    obtain ⟨h1, h2⟩ := hc k hk'
    refine ⟨h1, ?_⟩
    rw [if_neg (by omega), h2, List.getElem_append_left hk']

/-! ### The registry -/

@[simp] theorem regTag_nil (id : Byte) : regTag [] id = none := rfl

@[simp] theorem regTag_regCleared (id : Byte) : regTag regCleared id = none := rfl

@[simp] theorem Registry.wf_nil : Registry.wf [] = true := rfl

@[simp] theorem Registry.wf_regCleared : Registry.wf regCleared = true := rfl

/-- A registration changes its own entry and no other (42_dispatch.md R160). -/
theorem regTag_regWrite (r : Registry) (id : Byte) (tag : Tag) (x : Byte) :
    regTag (regWrite r id tag) x = if x = id then some tag else regTag r x := by
  simp only [regTag, regWrite, readCell_writeCell, BitVec.toNat_inj]

theorem Registry.wf_regWrite {r : Registry} (h : r.wf = true) (id : Byte) (tag : Tag) :
    Registry.wf (regWrite r id tag) = true := by
  simp only [Registry.wf, Bool.and_eq_true, List.all_eq_true, decide_eq_true_eq] at h ⊢
  refine ⟨rising_writeCell h.1 _ _, fun e he => ?_⟩
  rcases mem_writeCell he with rfl | he
  · exact id.isLt
  · exact h.2 e he

end Sys2Proof.Machine
end

