-- ==== Sys2Proof/Laws/Decode.lean ====
section
/-! SUPPORT. The laws of the operation word (30_encoding.md R76 to R79). -/

namespace Sys2Proof

theorem ifReservedZero_of_zero {n : Nat} {r : BitVec n} (h : r = 0) (i : Instr) : ifReservedZero r i = .ok i := by
  simp [ifReservedZero, h]

theorem ifReservedZero_of_ne {n : Nat} {r : BitVec n} (h : r ≠ 0) (i : Instr) :
    ifReservedZero r i = .error .reservedBits :=
  if_neg h

theorem ifReservedZero_eq_ok {n : Nat} {r : BitVec n} {i j : Instr} :
    ifReservedZero r i = .ok j ↔ r = 0 ∧ i = j := by
  unfold ifReservedZero
  split
  · simp [*]
  · simpa using fun h => absurd h ‹_›

theorem ifReservedZero_eq_error {n : Nat} {r : BitVec n} {i : Instr} {e : RefuseReason} :
    ifReservedZero r i = .error e ↔ r ≠ 0 ∧ e = .reservedBits := by
  unfold ifReservedZero
  split
  · simp [*]
  · simp only [Except.error.injEq, ne_eq, *, not_false_eq_true, true_and]
    exact eq_comm

/-- The bits of an operation word from `lo`, `n` of them, as a number. -/
theorem toNat_field (w : OpWord) (lo n : Nat) : (w.extractLsb' lo n).toNat = w.toNat / 2 ^ lo % 2 ^ n := by
  rw [BitVec.extractLsb'_toNat, Nat.shiftRight_eq_div_pow]

theorem opcode_toNat (w : OpWord) : (opcode w).toNat = w.toNat / 2 ^ 28 := by
  have := w.isLt
  rw [opcode, toNat_field]
  omega

/-- A field of the word, as the number it is taken from. -/
theorem field_eq_ofNat (w : OpWord) (lo n : Nat) : w.extractLsb' lo n = BitVec.ofNat n (w.toNat / 2 ^ lo) := by
  apply BitVec.eq_of_toNat_eq
  rw [toNat_field, BitVec.toNat_ofNat]

/-- A field is 0 exactly when the word has no bit of it. -/
theorem field_eq_zero_iff (w : OpWord) (lo n : Nat) :
    w.extractLsb' lo n = 0 ↔ w.toNat / 2 ^ lo % 2 ^ n = 0 := by
  rw [← toNat_field, ← BitVec.toNat_inj]
  rfl

/-- A field is 0 exactly when the word has no bit in common with the field's mask. -/
theorem field_eq_zero_iff_mask (w : OpWord) (lo n : Nat) (h : lo + n ≤ 32) :
    w.extractLsb' lo n = 0 ↔ w &&& ((BitVec.allOnes n).setWidth 32 <<< lo) = 0 := by
  constructor
  · intro e
    apply BitVec.eq_of_getLsbD_eq
    intro i hi
    have := congrArg (fun v => v.getLsbD (i - lo)) e
    simp only [BitVec.getLsbD_extractLsb', BitVec.ofNat_eq_ofNat, BitVec.getLsbD_zero, Bool.and_eq_false_imp,
      decide_eq_true_eq] at this
    simp only [BitVec.getLsbD_and, BitVec.getLsbD_shiftLeft, BitVec.getLsbD_setWidth, BitVec.getLsbD_allOnes,
      BitVec.ofNat_eq_ofNat, BitVec.getLsbD_zero]
    by_cases h1 : lo ≤ i
    · by_cases h2 : i - lo < n
      · rw [show lo + (i - lo) = i by omega] at this
        simp [this h2]
      · simp [h2]
    · simp [show i < lo by omega]
  · intro e
    apply BitVec.eq_of_getLsbD_eq
    intro i hi
    have := congrArg (fun v => v.getLsbD (lo + i)) e
    simp only [BitVec.getLsbD_and, BitVec.getLsbD_shiftLeft, BitVec.getLsbD_setWidth, BitVec.getLsbD_allOnes,
      BitVec.ofNat_eq_ofNat, BitVec.getLsbD_zero] at this
    simp only [BitVec.getLsbD_extractLsb', BitVec.ofNat_eq_ofNat, BitVec.getLsbD_zero]
    simpa [hi, show lo + i < 32 by omega, show i < 32 by omega] using this

/-! ### The decoder, by opcode (R77) -/

variable {op : Op}

theorem decode_opcode_1 (h : (opcode op.word).toNat = 0x1) :
    decode op = ifReservedZero (op.word.extractLsb' 8 20) (.rxByte (op.word.extractLsb' 0 8)) := by
  simp only [decode, h]

theorem decode_opcode_2 (h : (opcode op.word).toNat = 0x2) :
    decode op = ifReservedZero (op.word.extractLsb' 0 28) .tick := by
  simp only [decode, h]

theorem decode_opcode_3 (h : (opcode op.word).toNat = 0x3) :
    decode op = ifReservedZero (op.word.extractLsb' 0 28) .crcInit := by
  simp only [decode, h]

theorem decode_opcode_4 (h : (opcode op.word).toNat = 0x4) :
    decode op = ifReservedZero (op.word.extractLsb' 8 20) (.crcFeed (op.word.extractLsb' 0 8)) := by
  simp only [decode, h]

theorem decode_opcode_5 (h : (opcode op.word).toNat = 0x5) :
    decode op = ifReservedZero (op.word.extractLsb' 24 4)
      (.crcUpdate (op.word.extractLsb' 8 16) (op.word.extractLsb' 0 8)) := by
  simp only [decode, h]

theorem decode_opcode_6 (h : (opcode op.word).toNat = 0x6) :
    decode op = ifReservedZero (op.word.extractLsb' 24 4)
      (.encode (op.word.extractLsb' 16 8) (op.word.extractLsb' 0 16) op.payload op.space) := by
  simp only [decode, h]

theorem decode_opcode_7 (h : (opcode op.word).toNat = 0x7) :
    decode op = ifReservedZero (op.word.extractLsb' 24 4)
      (.regSet (op.word.extractLsb' 16 8) (op.word.extractLsb' 0 16)) := by
  simp only [decode, h]

theorem decode_opcode_8 (h : (opcode op.word).toNat = 0x8) :
    decode op = ifReservedZero (op.word.extractLsb' 16 12) (.cfgTimeout (op.word.extractLsb' 0 16)) := by
  simp only [decode, h]

theorem decode_opcode_15 (h : (opcode op.word).toNat = 0xF) :
    decode op = ifReservedZero (op.word.extractLsb' 0 28) .reset := by
  simp only [decode, h]

/-- Every other opcode is reserved (R79). -/
theorem decode_opcode_reserved
    (h : (opcode op.word).toNat ∈ ([0x0, 0x9, 0xA, 0xB, 0xC, 0xD, 0xE] : List Nat)) :
    decode op = .error .reservedOpcode := by
  simp only [List.mem_cons, List.not_mem_nil, or_false] at h
  rcases h with h | h | h | h | h | h | h <;> simp only [decode, h]

/-- An opcode is one of the nine of R77 or one of the seven reserved ones. -/
theorem opcode_cases (w : OpWord) :
    (opcode w).toNat ∈ ([0x1, 0x2, 0x3, 0x4, 0x5, 0x6, 0x7, 0x8, 0xF] : List Nat) ∨
    (opcode w).toNat ∈ ([0x0, 0x9, 0xA, 0xB, 0xC, 0xD, 0xE] : List Nat) := by
  have := (opcode w).isLt
  simp only [List.mem_cons, List.not_mem_nil, or_false]
  omega

/-! ### The encoder -/

@[simp] theorem encode_word (i : Instr) : (encode i).word = encodeWord i := rfl

/-- The word of an instruction as a number: its fields at the places of R77. -/
def wordNumber : Instr → Nat
  | .rxByte b => 0x1 * 2 ^ 28 + b.toNat
  | .tick => 0x2 * 2 ^ 28
  | .crcInit => 0x3 * 2 ^ 28
  | .crcFeed b => 0x4 * 2 ^ 28 + b.toNat
  | .crcUpdate c b => 0x5 * 2 ^ 28 + c.toNat * 2 ^ 8 + b.toNat
  | .encode id n _ _ => 0x6 * 2 ^ 28 + id.toNat * 2 ^ 16 + n.toNat
  | .regSet id tag => 0x7 * 2 ^ 28 + id.toNat * 2 ^ 16 + tag.toNat
  | .cfgTimeout t => 0x8 * 2 ^ 28 + t.toNat
  | .reset => 0xF * 2 ^ 28

theorem toNat_append_add {m n : Nat} (a : BitVec m) (b : BitVec n) :
    (a ++ b).toNat = a.toNat * 2 ^ n + b.toNat := by
  rw [BitVec.toNat_append, Nat.shiftLeft_eq, Nat.mul_comm, Nat.two_pow_add_eq_or_of_lt b.isLt]

theorem encodeWord_toNat (i : Instr) : (encodeWord i).toNat = wordNumber i := by
  cases i <;> simp only [encodeWord, wordNumber, toNat_append_add, BitVec.toNat_ofNat] <;> omega

end Sys2Proof
end

