-- ==== Sys2Proof/Laws/State.lean ====
section
/-! SUPPORT. What each shared update of the state leaves in each field: one lemma per field per update, so that no later
proof unfolds a record update. -/

namespace Sys2Proof.Machine

/-! ### `emit` -/

@[simp] theorem emit_params (o : Output) (s : State) : (emit o s).params = s.params := rfl
@[simp] theorem emit_rxState (o : Output) (s : State) : (emit o s).rxState = s.rxState := rfl
@[simp] theorem emit_rxCrcPhase (o : Output) (s : State) : (emit o s).rxCrcPhase = s.rxCrcPhase := rfl
@[simp] theorem emit_rxId (o : Output) (s : State) : (emit o s).rxId = s.rxId := rfl
@[simp] theorem emit_rxLen (o : Output) (s : State) : (emit o s).rxLen = s.rxLen := rfl
@[simp] theorem emit_rxIdx (o : Output) (s : State) : (emit o s).rxIdx = s.rxIdx := rfl
@[simp] theorem emit_rxCrc (o : Output) (s : State) : (emit o s).rxCrc = s.rxCrc := rfl
@[simp] theorem emit_rxCrcLo (o : Output) (s : State) : (emit o s).rxCrcLo = s.rxCrcLo := rfl
@[simp] theorem emit_rxBuf (o : Output) (s : State) : (emit o s).rxBuf = s.rxBuf := rfl
@[simp] theorem emit_tmoElapsed (o : Output) (s : State) : (emit o s).tmoElapsed = s.tmoElapsed := rfl
@[simp] theorem emit_timeoutMs (o : Output) (s : State) : (emit o s).timeoutMs = s.timeoutMs := rfl
@[simp] theorem emit_reg (o : Output) (s : State) : (emit o s).reg = s.reg := rfl
@[simp] theorem emit_crcAcc (o : Output) (s : State) : (emit o s).crcAcc = s.crcAcc := rfl
@[simp] theorem emit_refused (o : Output) (s : State) : (emit o s).refused = s.refused := rfl
@[simp] theorem emit_lastRefusal (o : Output) (s : State) : (emit o s).lastRefusal = s.lastRefusal := rfl
@[simp] theorem emit_outputs (o : Output) (s : State) : (emit o s).outputs = s.outputs ++ [o] := rfl
@[simp] theorem emit_ops (o : Output) (s : State) : (emit o s).ops = s.ops := rfl

/-! ### `framerReset` -/

@[simp] theorem framerReset_params (s : State) : (framerReset s).params = s.params := rfl
@[simp] theorem framerReset_rxState (s : State) : (framerReset s).rxState = .awaitStart1 := rfl
@[simp] theorem framerReset_rxCrcPhase (s : State) : (framerReset s).rxCrcPhase = false := rfl
@[simp] theorem framerReset_rxId (s : State) : (framerReset s).rxId = none := rfl
@[simp] theorem framerReset_rxLen (s : State) : (framerReset s).rxLen = 0 := rfl
@[simp] theorem framerReset_rxIdx (s : State) : (framerReset s).rxIdx = 0 := rfl
@[simp] theorem framerReset_rxCrc (s : State) : (framerReset s).rxCrc = 0x0000 := rfl
@[simp] theorem framerReset_rxCrcLo (s : State) : (framerReset s).rxCrcLo = none := rfl
@[simp] theorem framerReset_rxBuf (s : State) : (framerReset s).rxBuf = [] := rfl
@[simp] theorem framerReset_tmoElapsed (s : State) : (framerReset s).tmoElapsed = 0 := rfl
@[simp] theorem framerReset_timeoutMs (s : State) : (framerReset s).timeoutMs = s.timeoutMs := rfl
@[simp] theorem framerReset_reg (s : State) : (framerReset s).reg = s.reg := rfl
@[simp] theorem framerReset_crcAcc (s : State) : (framerReset s).crcAcc = s.crcAcc := rfl
@[simp] theorem framerReset_refused (s : State) : (framerReset s).refused = s.refused := rfl
@[simp] theorem framerReset_lastRefusal (s : State) : (framerReset s).lastRefusal = s.lastRefusal := rfl
@[simp] theorem framerReset_outputs (s : State) : (framerReset s).outputs = s.outputs := rfl
@[simp] theorem framerReset_ops (s : State) : (framerReset s).ops = s.ops := rfl

/-! ### `raiseError` -/

@[simp] theorem raiseError_params (k : LinkError) (s : State) : (raiseError k s).params = s.params := rfl
@[simp] theorem raiseError_rxState (k : LinkError) (s : State) : (raiseError k s).rxState = .awaitStart1 := rfl
@[simp] theorem raiseError_rxCrcPhase (k : LinkError) (s : State) : (raiseError k s).rxCrcPhase = false := rfl
@[simp] theorem raiseError_rxId (k : LinkError) (s : State) : (raiseError k s).rxId = none := rfl
@[simp] theorem raiseError_rxLen (k : LinkError) (s : State) : (raiseError k s).rxLen = 0 := rfl
@[simp] theorem raiseError_rxIdx (k : LinkError) (s : State) : (raiseError k s).rxIdx = 0 := rfl
@[simp] theorem raiseError_rxCrc (k : LinkError) (s : State) : (raiseError k s).rxCrc = 0x0000 := rfl
@[simp] theorem raiseError_rxCrcLo (k : LinkError) (s : State) : (raiseError k s).rxCrcLo = none := rfl
@[simp] theorem raiseError_rxBuf (k : LinkError) (s : State) : (raiseError k s).rxBuf = [] := rfl
@[simp] theorem raiseError_tmoElapsed (k : LinkError) (s : State) : (raiseError k s).tmoElapsed = 0 := rfl
@[simp] theorem raiseError_timeoutMs (k : LinkError) (s : State) : (raiseError k s).timeoutMs = s.timeoutMs := rfl
@[simp] theorem raiseError_reg (k : LinkError) (s : State) : (raiseError k s).reg = s.reg := rfl
@[simp] theorem raiseError_crcAcc (k : LinkError) (s : State) : (raiseError k s).crcAcc = s.crcAcc := rfl
@[simp] theorem raiseError_refused (k : LinkError) (s : State) : (raiseError k s).refused = s.refused := rfl
@[simp] theorem raiseError_lastRefusal (k : LinkError) (s : State) : (raiseError k s).lastRefusal = s.lastRefusal := rfl
@[simp] theorem raiseError_outputs (k : LinkError) (s : State) : (raiseError k s).outputs = s.outputs ++ [.rxOut k.code none none] := rfl
@[simp] theorem raiseError_ops (k : LinkError) (s : State) : (raiseError k s).ops = s.ops := rfl

/-! ### `refuse` -/

@[simp] theorem refuse_params (r : RefuseReason) (s : State) : (refuse r s).params = s.params := rfl
@[simp] theorem refuse_rxState (r : RefuseReason) (s : State) : (refuse r s).rxState = s.rxState := rfl
@[simp] theorem refuse_rxCrcPhase (r : RefuseReason) (s : State) : (refuse r s).rxCrcPhase = s.rxCrcPhase := rfl
@[simp] theorem refuse_rxId (r : RefuseReason) (s : State) : (refuse r s).rxId = s.rxId := rfl
@[simp] theorem refuse_rxLen (r : RefuseReason) (s : State) : (refuse r s).rxLen = s.rxLen := rfl
@[simp] theorem refuse_rxIdx (r : RefuseReason) (s : State) : (refuse r s).rxIdx = s.rxIdx := rfl
@[simp] theorem refuse_rxCrc (r : RefuseReason) (s : State) : (refuse r s).rxCrc = s.rxCrc := rfl
@[simp] theorem refuse_rxCrcLo (r : RefuseReason) (s : State) : (refuse r s).rxCrcLo = s.rxCrcLo := rfl
@[simp] theorem refuse_rxBuf (r : RefuseReason) (s : State) : (refuse r s).rxBuf = s.rxBuf := rfl
@[simp] theorem refuse_tmoElapsed (r : RefuseReason) (s : State) : (refuse r s).tmoElapsed = s.tmoElapsed := rfl
@[simp] theorem refuse_timeoutMs (r : RefuseReason) (s : State) : (refuse r s).timeoutMs = s.timeoutMs := rfl
@[simp] theorem refuse_reg (r : RefuseReason) (s : State) : (refuse r s).reg = s.reg := rfl
@[simp] theorem refuse_crcAcc (r : RefuseReason) (s : State) : (refuse r s).crcAcc = s.crcAcc := rfl
@[simp] theorem refuse_refused (r : RefuseReason) (s : State) : (refuse r s).refused = true := rfl
@[simp] theorem refuse_lastRefusal (r : RefuseReason) (s : State) : (refuse r s).lastRefusal = some r := rfl
@[simp] theorem refuse_outputs (r : RefuseReason) (s : State) : (refuse r s).outputs = s.outputs := rfl
@[simp] theorem refuse_ops (r : RefuseReason) (s : State) : (refuse r s).ops = s.ops := rfl

end Sys2Proof.Machine
end

