-- ==== Sys2Proof/Laws/Ops.lean ====
section
/-! SUPPORT. What each shared operation computes, said once. -/

namespace Sys2Proof.Machine

/-! ### Bytes of a u16 (20_memory.md R53) -/

theorem concatBytes_toNat (hi lo : Byte) : (concatBytes hi lo).toNat = hi.toNat * 256 + lo.toNat :=
  toNat_append_add hi lo

theorem lowByte_toNat (v : Half) : (lowByte v).toNat = v.toNat % 256 := by
  rw [lowByte, BitVec.extractLsb'_toNat, Nat.shiftRight_zero]

theorem highByte_toNat (v : Half) : (highByte v).toNat = v.toNat / 256 := by
  have := v.isLt
  rw [highByte, BitVec.extractLsb'_toNat, Nat.shiftRight_eq_div_pow]
  omega

@[simp] theorem concatBytes_high_low (v : Half) : concatBytes (highByte v) (lowByte v) = v := by
  apply BitVec.eq_of_toNat_eq
  rw [concatBytes_toNat, highByte_toNat, lowByte_toNat]
  omega

@[simp] theorem lowByte_concatBytes (hi lo : Byte) : lowByte (concatBytes hi lo) = lo := by
  apply BitVec.eq_of_toNat_eq
  have := lo.isLt
  rw [lowByte_toNat, concatBytes_toNat]
  omega

@[simp] theorem highByte_concatBytes (hi lo : Byte) : highByte (concatBytes hi lo) = hi := by
  apply BitVec.eq_of_toNat_eq
  have := lo.isLt
  rw [highByte_toNat, concatBytes_toNat]
  omega

/-- Two bytes make a given u16 only if they are its two bytes. -/
theorem concatBytes_eq_iff {hi lo : Byte} {v : Half} :
    concatBytes hi lo = v ↔ hi = highByte v ∧ lo = lowByte v := by
  constructor
  · rintro rfl; simp
  · rintro ⟨rfl, rfl⟩; simp

@[simp] theorem lowByte_zeroExtend (b : Byte) : lowByte (b.zeroExtend 16) = b := by
  apply BitVec.eq_of_toNat_eq
  have := b.isLt
  rw [lowByte_toNat, BitVec.zeroExtend, BitVec.toNat_setWidth]
  omega

@[simp] theorem receivedCrc_high_low (v : Half) : receivedCrc (highByte v) (lowByte v) = v :=
  concatBytes_high_low v

@[simp] theorem wireBytes_length (v : Half) : (wireBytes v).length = 2 := rfl

/-! ### The CRC (40_crc.md R100, R102) -/

@[simp] theorem crc16Compute_nil : crc16Compute [] = 0 := rfl

theorem crc16Fold_append (c : Half) (s t : List Byte) : crc16Fold c (s ++ t) = crc16Fold (crc16Fold c s) t :=
  List.foldl_append ..

@[simp] theorem crc16Fold_cons (c : Half) (b : Byte) (s : List Byte) :
    crc16Fold c (b :: s) = crc16Fold (crc16Upd c b) s := rfl

@[simp] theorem crc16Fold_nil (c : Half) : crc16Fold c [] = c := rfl

theorem crcShifts_add (m n : Nat) (v : Half) : crcShifts (m + n) v = crcShifts n (crcShifts m v) := by
  induction m generalizing v with
  | zero => simp [crcShifts]
  | succ m ih => rw [Nat.add_right_comm]; exact ih (crcShift v)

/-- One pass of the loop is linear over exclusive-or (40_crc.md R101). -/
theorem crcShift_xor (u v : Half) : crcShift (u ^^^ v) = crcShift u ^^^ crcShift v := by
  have hs : (u ^^^ v) <<< 1 = (u <<< 1) ^^^ (v <<< 1) := BitVec.shiftLeft_xor_distrib ..
  have hk : ∀ a b k : Half, a ^^^ b = (a ^^^ k) ^^^ (b ^^^ k) := fun a b k => by
    rw [BitVec.xor_comm b k, ← BitVec.xor_assoc, BitVec.xor_assoc a, BitVec.xor_self, BitVec.xor_zero]
  simp only [crcShift, BitVec.msb_xor, hs]
  cases u.msb <;> cases v.msb
  · rfl
  · exact BitVec.xor_assoc ..
  · show u <<< 1 ^^^ v <<< 1 ^^^ 0x1021 = u <<< 1 ^^^ 0x1021 ^^^ v <<< 1
    rw [BitVec.xor_assoc, BitVec.xor_comm (v <<< 1), ← BitVec.xor_assoc]
  · exact hk ..

/-! ### The frame (30_encoding.md R70, R73) -/

@[simp] theorem coveredBytes_length (id : Byte) (n : Half) (payload : List Byte) :
    (coveredBytes id n payload).length = 3 + payload.length := by
  simp [coveredBytes, wireBytes]; omega

theorem frameBytes_length (p : Params) (id : Byte) (n : Half) (payload : List Byte) :
    (frameBytes p id n payload).length = 9 + payload.length := by
  simp [frameBytes]; omega

/-! ### Dispatch (42_dispatch.md R161, R162) -/

theorem dispatchOf_eq_some {s : State} {id : Byte} {payload : List Byte} {d : Dispatched} :
    dispatchOf s id payload = some d ↔ ∃ tag, regTag s.reg id = some tag ∧ d = ⟨id, tag, payload⟩ := by
  unfold dispatchOf
  cases regTag s.reg id <;> simp [eq_comm]

theorem dispatchOf_eq_none {s : State} {id : Byte} {payload : List Byte} :
    dispatchOf s id payload = none ↔ regTag s.reg id = none := by
  unfold dispatchOf
  cases regTag s.reg id <;> simp

/-! ### The encoder's checks (43_tx_encoder.md R170, R171; 60_exceptions.md R206) -/

/-- An `ENCODE` is not refused exactly when its operands are well formed. -/
theorem encodeRefusal_eq_none {p : Params} {id : Byte} {n : Half} {payload : List Byte} {space : Option Nat} :
    encodeRefusal p n payload space = none ↔ (Instr.encode id n payload space).wellFormed p = true := by
  unfold encodeRefusal
  split
  · next h => simpa [Instr.wellFormed, payloadFits] using fun e => absurd e h
  · split
    · next h => simpa [Instr.wellFormed, spacePresented] using fun _ e => absurd e h
    · next h h' =>
      simp only [ne_eq, Decidable.not_not] at h h'
      simp [Instr.wellFormed, payloadFits, spacePresented, h, h']

theorem spaceShort_eq_true {p : Params} {n : Half} {space : Option Nat} :
    spaceShort p n space = true ↔ p.txSpaceCheck = true ∧ ∃ k, space = some k ∧ k < 9 + n.toNat := by
  unfold spaceShort
  cases space <;> simp

/-- All an `ENCODE` can do. -/
theorem afterEncode_cases (id : Byte) (n : Half) (payload : List Byte) (space : Option Nat) (s : State) :
    (∃ r, encodeRefusal s.params n payload space = some r ∧ afterEncode id n payload space s = refuse r s) ∨
    (encodeRefusal s.params n payload space = none ∧
      afterEncode id n payload space s = emit (encodeOutput s.params id n payload space) s) := by
  unfold afterEncode
  cases h : encodeRefusal s.params n payload space with
  | some r => exact .inl ⟨r, rfl, rfl⟩
  | none => exact .inr ⟨rfl, rfl⟩

/-! ### The timeout counter (41_rx_framer.md R140, R141) -/

/-- The 17-bit increment does not wrap (10_state.md R30). -/
theorem elapsedNext_toNat (s : State) : (elapsedNext s).toNat = s.tmoElapsed.toNat + 1 := by
  have := s.tmoElapsed.isLt
  have one : (1 : BitVec 17).toNat = 1 := rfl
  rw [elapsedNext, BitVec.zeroExtend, BitVec.toNat_add, BitVec.toNat_setWidth, one]
  omega

/-- All a tick in a frame can do. -/
theorem tickInFrame_cases (s : State) :
    (s.timeoutMs.toNat < s.tmoElapsed.toNat + 1 ∧ tickInFrame s = raiseError .timeout s) ∨
    (s.tmoElapsed.toNat + 1 ≤ s.timeoutMs.toNat ∧
      tickInFrame s = emit rxAwaiting { s with tmoElapsed := s.tmoElapsed + 1 }) := by
  unfold tickInFrame
  rw [elapsedNext_toNat]
  split
  · next h => exact .inl ⟨h, rfl⟩
  · next h =>
    refine .inr ⟨by omega, ?_⟩
    have e : (elapsedNext s).truncate 16 = s.tmoElapsed + 1 := by
      apply BitVec.eq_of_toNat_eq
      rw [BitVec.truncate, BitVec.toNat_setWidth, elapsedNext_toNat, BitVec.toNat_add]
      rfl
    rw [e]

end Sys2Proof.Machine
end

