-- ==== Sys2Proof/Laws/Framer.lean ====
section
/-! SUPPORT. What `RX_BYTE` runs in each framer state (41_rx_framer.md R120), and all that each state's rule can do. -/

namespace Sys2Proof.Machine

variable {b : Byte} {s t : State}

/-! ### The rule of each state -/

theorem execRxByte_awaitStart1 (h : s.rxState = .awaitStart1) :
    execRxByte b s = .next (rxAwaitStart1 b { s with tmoElapsed := 0 }) := by
  simp only [execRxByte, h]

theorem execRxByte_awaitStart2 (h : s.rxState = .awaitStart2) :
    execRxByte b s = .next (rxAwaitStart2 b { s with tmoElapsed := 0 }) := by
  simp only [execRxByte, h]

theorem execRxByte_readId (h : s.rxState = .readId) :
    execRxByte b s = .next (rxReadId b { s with tmoElapsed := 0 }) := by
  simp only [execRxByte, h]

theorem execRxByte_readLenLow (h : s.rxState = .readLenLow) :
    execRxByte b s = .next (rxReadLenLow b { s with tmoElapsed := 0 }) := by
  simp only [execRxByte, h]

theorem execRxByte_readLenHigh (h : s.rxState = .readLenHigh) :
    execRxByte b s = .next (rxReadLenHigh b { s with tmoElapsed := 0 }) := by
  simp only [execRxByte, h]

theorem execRxByte_readData (h : s.rxState = .readData) :
    execRxByte b s = rxReadData b { s with tmoElapsed := 0 } := by
  simp only [execRxByte, h]

theorem execRxByte_readCrc (h : s.rxState = .readCrc) :
    execRxByte b s = rxReadCrc b { s with tmoElapsed := 0 } := by
  simp only [execRxByte, h]

theorem execRxByte_readStop1 (h : s.rxState = .readStop1) :
    execRxByte b s = .next (rxReadStop1 b { s with tmoElapsed := 0 }) := by
  simp only [execRxByte, h]

theorem execRxByte_readStop2 (h : s.rxState = .readStop2) :
    execRxByte b s = rxReadStop2 b { s with tmoElapsed := 0 } := by
  simp only [execRxByte, h]

/-! ### All that each rule can do -/

/-- R122, R123. -/
theorem rxAwaitStart1_cases (b : Byte) (s : State) :
    (b = s.params.start1 ∧ rxAwaitStart1 b s =
      emit rxAwaiting { s with rxCrc := 0, rxIdx := 0, rxBuf := [], rxState := .awaitStart2 }) ∨
    (b ≠ s.params.start1 ∧ rxAwaitStart1 b s = emit rxAwaiting s) := by
  unfold rxAwaitStart1
  split
  · exact .inl ⟨‹_›, rfl⟩
  · exact .inr ⟨‹_›, rfl⟩

/-- R124, R125. -/
theorem rxAwaitStart2_cases (b : Byte) (s : State) :
    (b = s.params.start2 ∧ rxAwaitStart2 b s = emit rxAwaiting { s with rxState := .readId }) ∨
    (b ≠ s.params.start2 ∧ rxAwaitStart2 b s = emit rxAwaiting (framerReset s)) := by
  unfold rxAwaitStart2
  split
  · exact .inl ⟨‹_›, rfl⟩
  · exact .inr ⟨‹_›, rfl⟩

/-- R128, R129, R130. -/
theorem rxReadLenHigh_cases (b : Byte) (s : State) :
    (s.params.rxCap.val < (declaredLength b s.rxLen).toNat ∧ rxReadLenHigh b s = raiseError .badLength s) ∨
    ((declaredLength b s.rxLen).toNat ≤ s.params.rxCap.val ∧ declaredLength b s.rxLen = 0 ∧
      rxReadLenHigh b s = emit rxAwaiting
        { s with rxLen := 0, rxCrc := crc16Upd s.rxCrc b, rxCrcPhase := false, rxState := .readCrc }) ∨
    ((declaredLength b s.rxLen).toNat ≤ s.params.rxCap.val ∧ 0 < (declaredLength b s.rxLen).toNat ∧
      rxReadLenHigh b s = emit rxAwaiting
        { s with rxLen := declaredLength b s.rxLen, rxCrc := crc16Upd s.rxCrc b, rxState := .readData }) := by
  unfold rxReadLenHigh
  simp only
  split
  · exact .inl ⟨‹_›, rfl⟩
  · split
    · exact .inr (.inl ⟨by omega, ‹_›, rfl⟩)
    · next h =>
      refine .inr (.inr ⟨by omega, Nat.pos_of_ne_zero fun e => h (BitVec.eq_of_toNat_eq e), rfl⟩)

/-- The state in which R131 leaves the framer's payload fields: the byte stored, folded and counted. -/
def payloadStored (b : Byte) (s : State) : State :=
  { s with rxBuf := s.rxBuf.write s.rxIdx.toNat b, rxCrc := crc16Upd s.rxCrc b, rxIdx := s.rxIdx + 1 }

/-- R131. -/
theorem rxReadData_cases (b : Byte) (s : State) :
    (s.params.rxCap.val ≤ s.rxIdx.toNat ∧ rxReadData b s = .fault .bufferIndexOutOfRange) ∨
    (s.rxIdx.toNat < s.params.rxCap.val ∧ s.rxIdx + 1 = s.rxLen ∧ rxReadData b s =
      .next (emit rxAwaiting { payloadStored b s with rxState := .readCrc, rxCrcPhase := false })) ∨
    (s.rxIdx.toNat < s.params.rxCap.val ∧ s.rxIdx + 1 ≠ s.rxLen ∧ rxReadData b s =
      .next (emit rxAwaiting (payloadStored b s))) := by
  unfold rxReadData
  rcases bufWrite_cases s.params s.rxBuf s.rxIdx.toNat b with ⟨h, e⟩ | ⟨h, e⟩
  · simp only [e]
    split
    · exact .inr (.inl ⟨h, ‹_›, rfl⟩)
    · exact .inr (.inr ⟨h, ‹_›, rfl⟩)
  · simp only [e]
    exact .inl ⟨h, trivial⟩

/-- R132, R133, R134. -/
theorem rxReadCrc_cases (b : Byte) (s : State) :
    (s.rxCrcPhase = false ∧
      rxReadCrc b s = .next (emit rxAwaiting { s with rxCrcLo := some b, rxCrcPhase := true })) ∨
    (s.rxCrcPhase = true ∧ s.rxCrcLo = none ∧ rxReadCrc b s = .fault .readOfNoValue) ∨
    (∃ lo, s.rxCrcPhase = true ∧ s.rxCrcLo = some lo ∧ receivedCrc b lo = s.rxCrc ∧
      rxReadCrc b s = .next (emit rxAwaiting { s with rxCrcPhase := false, rxState := .readStop1 })) ∨
    (∃ lo, s.rxCrcPhase = true ∧ s.rxCrcLo = some lo ∧ receivedCrc b lo ≠ s.rxCrc ∧
      rxReadCrc b s = .next (raiseError .crcMismatch s)) := by
  unfold rxReadCrc
  cases hp : s.rxCrcPhase with
  | false => simp
  | true =>
    cases hl : s.rxCrcLo with
    | none => simp
    | some lo => by_cases hc : receivedCrc b lo = s.rxCrc <;> simp [hc]

/-- R135, R136. -/
theorem rxReadStop1_cases (b : Byte) (s : State) :
    (b = s.params.stop1 ∧ rxReadStop1 b s = emit rxAwaiting { s with rxState := .readStop2 }) ∨
    (b ≠ s.params.stop1 ∧ rxReadStop1 b s = raiseError .badStopByte s) := by
  unfold rxReadStop1
  split
  · exact .inl ⟨‹_›, rfl⟩
  · exact .inr ⟨‹_›, rfl⟩

/-- R137, R138: if the second stop rule answers a next state, it is one of these two. -/
theorem rxReadStop2_next {t : State} (h : rxReadStop2 b s = .next t) :
    (∃ id payload, b = s.params.stop2 ∧ s.rxId = some id ∧
      bufReadFrom s.params s.rxBuf 0 s.rxLen.toNat = .ok payload ∧
      t = emit (.rxOut .frameComplete (some ⟨id, payload⟩) (dispatchOf s id payload)) (framerReset s)) ∨
    (b ≠ s.params.stop2 ∧ t = raiseError .badStopByte s) := by
  unfold rxReadStop2 at h
  split at h
  · next hb =>
    unfold rxFrameComplete at h
    split at h
    · cases h
    · next id hid =>
      split at h
      · cases h
      · next payload hp => cases h; exact .inl ⟨id, payload, hb, hid, hp, rfl⟩
  · next hb => cases h; exact .inr ⟨hb, rfl⟩

/-- R137: what completes when the id is held and the payload can be read. -/
theorem rxReadStop2_complete {id : Byte} {payload : List Byte} (hb : b = s.params.stop2) (hid : s.rxId = some id)
    (hp : bufReadFrom s.params s.rxBuf 0 s.rxLen.toNat = .ok payload) :
    rxReadStop2 b s = .next
      (emit (.rxOut .frameComplete (some ⟨id, payload⟩) (dispatchOf s id payload)) (framerReset s)) := by
  simp only [rxReadStop2, if_pos hb, rxFrameComplete, hid, hp]

/-- The reset does not see what the fields it writes held before. -/
@[simp] theorem framerReset_tmoElapsed_update (s : State) (e : Half) :
    framerReset { s with tmoElapsed := e } = framerReset s := rfl

@[simp] theorem raiseError_tmoElapsed_update (k : LinkError) (s : State) (e : Half) :
    raiseError k { s with tmoElapsed := e } = raiseError k s := rfl

@[simp] theorem dispatchOf_tmoElapsed_update (s : State) (e : Half) (id : Byte) (payload : List Byte) :
    dispatchOf { s with tmoElapsed := e } id payload = dispatchOf s id payload := rfl

/-! ### All that `RX_BYTE` can do -/

/-- One constructor per rule R122 to R138: the condition, and the state the rule leaves. -/
inductive RxRule (b : Byte) (s : State) : State → Prop where
  /-- R122. -/
  | startMarker (h : s.rxState = .awaitStart1) (hb : b = s.params.start1) : RxRule b s (emit rxAwaiting
      { s with tmoElapsed := 0, rxCrc := 0, rxIdx := 0, rxBuf := [], rxState := .awaitStart2 })
  /-- R123. -/
  | ignored (h : s.rxState = .awaitStart1) (hb : b ≠ s.params.start1) :
      RxRule b s (emit rxAwaiting { s with tmoElapsed := 0 })
  /-- R124. -/
  | secondMarker (h : s.rxState = .awaitStart2) (hb : b = s.params.start2) :
      RxRule b s (emit rxAwaiting { s with tmoElapsed := 0, rxState := .readId })
  /-- R125. -/
  | resync (h : s.rxState = .awaitStart2) (hb : b ≠ s.params.start2) :
      RxRule b s (emit rxAwaiting (framerReset s))
  /-- R126. -/
  | frameId (h : s.rxState = .readId) : RxRule b s (emit rxAwaiting
      { s with tmoElapsed := 0, rxId := some b, rxCrc := crc16Upd s.rxCrc b, rxState := .readLenLow })
  /-- R127. -/
  | lenLow (h : s.rxState = .readLenLow) : RxRule b s (emit rxAwaiting
      { s with tmoElapsed := 0, rxLen := b.zeroExtend 16, rxCrc := crc16Upd s.rxCrc b, rxState := .readLenHigh })
  /-- R130. -/
  | badLength (h : s.rxState = .readLenHigh) (hl : s.params.rxCap.val < (declaredLength b s.rxLen).toNat) :
      RxRule b s (raiseError .badLength s)
  /-- R129. -/
  | emptyPayload (h : s.rxState = .readLenHigh) (hl : declaredLength b s.rxLen = 0) : RxRule b s (emit rxAwaiting
      { s with tmoElapsed := 0, rxLen := 0, rxCrc := crc16Upd s.rxCrc b, rxCrcPhase := false, rxState := .readCrc })
  /-- R128. -/
  | header (h : s.rxState = .readLenHigh) (hl : (declaredLength b s.rxLen).toNat ≤ s.params.rxCap.val)
      (h0 : 0 < (declaredLength b s.rxLen).toNat) : RxRule b s (emit rxAwaiting
      { s with tmoElapsed := 0, rxLen := declaredLength b s.rxLen, rxCrc := crc16Upd s.rxCrc b, rxState := .readData })
  /-- R131, the last payload byte. -/
  | lastPayloadByte (h : s.rxState = .readData) (hi : s.rxIdx.toNat < s.params.rxCap.val)
      (hl : s.rxIdx + 1 = s.rxLen) : RxRule b s (emit rxAwaiting
      { payloadStored b s with tmoElapsed := 0, rxState := .readCrc, rxCrcPhase := false })
  /-- R131, any other payload byte. -/
  | payloadByte (h : s.rxState = .readData) (hi : s.rxIdx.toNat < s.params.rxCap.val)
      (hl : s.rxIdx + 1 ≠ s.rxLen) : RxRule b s (emit rxAwaiting { payloadStored b s with tmoElapsed := 0 })
  /-- R132. -/
  | crcLow (h : s.rxState = .readCrc) (hp : s.rxCrcPhase = false) : RxRule b s (emit rxAwaiting
      { s with tmoElapsed := 0, rxCrcLo := some b, rxCrcPhase := true })
  /-- R133. -/
  | crcMatch (h : s.rxState = .readCrc) (hp : s.rxCrcPhase = true) (lo : Byte) (hlo : s.rxCrcLo = some lo)
      (hc : receivedCrc b lo = s.rxCrc) : RxRule b s (emit rxAwaiting
      { s with tmoElapsed := 0, rxCrcPhase := false, rxState := .readStop1 })
  /-- R134. -/
  | crcMismatch (h : s.rxState = .readCrc) (hp : s.rxCrcPhase = true) (lo : Byte) (hlo : s.rxCrcLo = some lo)
      (hc : receivedCrc b lo ≠ s.rxCrc) : RxRule b s (raiseError .crcMismatch s)
  /-- R135. -/
  | stopMarker (h : s.rxState = .readStop1) (hb : b = s.params.stop1) :
      RxRule b s (emit rxAwaiting { s with tmoElapsed := 0, rxState := .readStop2 })
  /-- R136. -/
  | badStop1 (h : s.rxState = .readStop1) (hb : b ≠ s.params.stop1) : RxRule b s (raiseError .badStopByte s)
  /-- R137. -/
  | frameComplete (h : s.rxState = .readStop2) (hb : b = s.params.stop2) (id : Byte) (hid : s.rxId = some id)
      (payload : List Byte) (hp : bufReadFrom s.params s.rxBuf 0 s.rxLen.toNat = .ok payload) : RxRule b s
      (emit (.rxOut .frameComplete (some ⟨id, payload⟩) (dispatchOf s id payload)) (framerReset s))
  /-- R138. -/
  | badStop2 (h : s.rxState = .readStop2) (hb : b ≠ s.params.stop2) : RxRule b s (raiseError .badStopByte s)

/-- If `RX_BYTE` answers a next state, one of the rules gave it. -/
theorem execRxByte_rule {b : Byte} {s t : State} (h : execRxByte b s = .next t) : RxRule b s t := by
  have inj : ∀ {u v : State}, (Host.Outcome.next u : Result) = .next v → u = v := fun e => by cases e; rfl
  cases hs : s.rxState with
  | awaitStart1 =>
    rw [execRxByte_awaitStart1 hs] at h
    rcases rxAwaitStart1_cases b { s with tmoElapsed := 0 } with ⟨hb, e⟩ | ⟨hb, e⟩ <;> rw [e] at h <;> cases inj h
    · exact .startMarker hs hb
    · exact .ignored hs hb
  | awaitStart2 =>
    rw [execRxByte_awaitStart2 hs] at h
    rcases rxAwaitStart2_cases b { s with tmoElapsed := 0 } with ⟨hb, e⟩ | ⟨hb, e⟩ <;> rw [e] at h <;> cases inj h
    · exact .secondMarker hs hb
    · exact .resync hs hb
  | readId => rw [execRxByte_readId hs] at h; cases inj h; exact .frameId hs
  | readLenLow => rw [execRxByte_readLenLow hs] at h; cases inj h; exact .lenLow hs
  | readLenHigh =>
    rw [execRxByte_readLenHigh hs] at h
    rcases rxReadLenHigh_cases b { s with tmoElapsed := 0 } with ⟨hl, e⟩ | ⟨-, h0, e⟩ | ⟨hl, h0, e⟩ <;>
      rw [e] at h <;> cases inj h
    · exact .badLength hs hl
    · exact .emptyPayload hs h0
    · exact .header hs hl h0
  | readData =>
    rw [execRxByte_readData hs] at h
    rcases rxReadData_cases b { s with tmoElapsed := 0 } with ⟨-, e⟩ | ⟨hi, hl, e⟩ | ⟨hi, hl, e⟩ <;> rw [e] at h
    · cases h
    · cases inj h; exact .lastPayloadByte hs hi hl
    · cases inj h; exact .payloadByte hs hi hl
  | readCrc =>
    rw [execRxByte_readCrc hs] at h
    rcases rxReadCrc_cases b { s with tmoElapsed := 0 } with
      ⟨hp, e⟩ | ⟨-, -, e⟩ | ⟨lo, hp, hlo, hc, e⟩ | ⟨lo, hp, hlo, hc, e⟩ <;> rw [e] at h
    · cases inj h; exact .crcLow hs hp
    · cases h
    · cases inj h; exact .crcMatch hs hp lo hlo hc
    · cases inj h; exact .crcMismatch hs hp lo hlo hc
  | readStop1 =>
    rw [execRxByte_readStop1 hs] at h
    rcases rxReadStop1_cases b { s with tmoElapsed := 0 } with ⟨hb, e⟩ | ⟨hb, e⟩ <;> rw [e] at h <;> cases inj h
    · exact .stopMarker hs hb
    · exact .badStop1 hs hb
  | readStop2 =>
    rw [execRxByte_readStop2 hs] at h
    rcases rxReadStop2_next h with ⟨id, payload, hb, hid, hp, rfl⟩ | ⟨hb, rfl⟩
    · exact .frameComplete hs hb id hid payload hp
    · exact .badStop2 hs hb

/-! ### All that `TICK` can do -/

/-- R139 to R141. -/
theorem execTick_cases (s : State) :
    (s.rxState = .awaitStart1 ∧ execTick s = .next (emit rxAwaiting s)) ∨
    (s.rxState ≠ .awaitStart1 ∧ s.tmoElapsed.toNat + 1 ≤ s.timeoutMs.toNat ∧
      execTick s = .next (emit rxAwaiting { s with tmoElapsed := s.tmoElapsed + 1 })) ∨
    (s.rxState ≠ .awaitStart1 ∧ s.timeoutMs.toNat < s.tmoElapsed.toNat + 1 ∧
      execTick s = .next (raiseError .timeout s)) := by
  unfold execTick
  split
  · exact .inl ⟨‹_›, rfl⟩
  · rcases tickInFrame_cases s with ⟨h, e⟩ | ⟨h, e⟩
    · exact .inr (.inr ⟨‹_›, h, by rw [e]⟩)
    · exact .inr (.inl ⟨‹_›, h, by rw [e]⟩)

end Sys2Proof.Machine
end

