-- ==== Sys2Proof/Laws/PerInstr.lean ====
section
/-! SUPPORT. What is said of each operation on its own: the family `ReservedBits`. -/

namespace Sys2Proof.Laws.ReservedBits

/-- The opcode `w[31:28]` of an operation and the lowest bit above its fields (30_encoding.md R77). -/
def layout : Instr → Nat × Nat
  | .rxByte _ => (0x1, 8)
  | .tick => (0x2, 0)
  | .crcInit => (0x3, 0)
  | .crcFeed _ => (0x4, 8)
  | .crcUpdate _ _ => (0x5, 24)
  | .encode _ _ _ _ => (0x6, 24)
  | .regSet _ _ => (0x7, 24)
  | .cfgTimeout _ => (0x8, 16)
  | .reset => (0xF, 0)

/-- Above its fields the word of an operation holds its opcode and nothing else: every reserved bit is 0
(30_encoding.md R77, R79). -/
def Statement (i : Instr) : Prop :=
  (encodeWord i).toNat / 2 ^ (layout i).2 = (layout i).1 * 2 ^ (28 - (layout i).2)

theorem rxByte (b : Byte) : Statement (.rxByte b) := by
  simp only [Statement, encodeWord_toNat, wordNumber, layout]; omega

theorem tick : Statement .tick := by
  simp only [Statement, encodeWord_toNat, wordNumber, layout]; omega

theorem crcInit : Statement .crcInit := by
  simp only [Statement, encodeWord_toNat, wordNumber, layout]; omega

theorem crcFeed (b : Byte) : Statement (.crcFeed b) := by
  simp only [Statement, encodeWord_toNat, wordNumber, layout]; omega

theorem crcUpdate (c : Half) (b : Byte) : Statement (.crcUpdate c b) := by
  simp only [Statement, encodeWord_toNat, wordNumber, layout]; omega

theorem encode (id : Byte) (n : Half) (payload : List Byte) (space : Option Nat) :
    Statement (.encode id n payload space) := by
  simp only [Statement, encodeWord_toNat, wordNumber, layout]; omega

theorem regSet (id : Byte) (tag : Tag) : Statement (.regSet id tag) := by
  simp only [Statement, encodeWord_toNat, wordNumber, layout]; omega

theorem cfgTimeout (t : Half) : Statement (.cfgTimeout t) := by
  simp only [Statement, encodeWord_toNat, wordNumber, layout]; omega

theorem reset : Statement .reset := by
  simp only [Statement, encodeWord_toNat, wordNumber, layout]; omega

end Sys2Proof.Laws.ReservedBits
end

