-- ==== Sys2Proof/Laws/Step.lean ====
section
/-! SUPPORT. All that a step can do, and the laws of runs. -/

namespace Sys2Proof.Machine

variable {s t : State}

/-- The next state of a step: none presented; a word refused by the decoder; or an operation run. -/
theorem step_cases (h : step s = .next t) :
    (s.ops = [] ∧ t = s) ∨
    (∃ op rest r, s.ops = op :: rest ∧ decode op = .error r ∧ t = refuse r { s with ops := rest }) ∨
    (∃ op rest i, s.ops = op :: rest ∧ decode op = .ok i ∧ exec i { s with ops := rest } = .next t) := by
  unfold step at h
  split at h
  · next ho => cases h; exact .inl ⟨ho, rfl⟩
  · next op rest ho =>
    split at h
    · next i hd => exact .inr (.inr ⟨op, rest, i, ho, hd, h⟩)
    · next r hd => cases h; exact .inr (.inl ⟨op, rest, r, ho, hd, rfl⟩)

@[simp] theorem runInstrs_nil (s : State) : runInstrs [] s = .next s := rfl

theorem runInstrs_cons {i : Instr} {rest : List Instr} (h : exec i s = .next t) :
    runInstrs (i :: rest) s = runInstrs rest t := by
  simp only [runInstrs, h]

theorem runInstrs_cons_next {i : Instr} {rest : List Instr} {u : State} (h : runInstrs (i :: rest) s = .next u) :
    ∃ t, exec i s = .next t ∧ runInstrs rest t = .next u := by
  unfold runInstrs at h
  split at h
  · next t ht => exact ⟨t, ht, h⟩
  · cases h
  · cases h

/-- A run of two parts is the second part from where the first ends. -/
theorem runInstrs_append {is js : List Instr} (h : runInstrs is s = .next t) :
    runInstrs (is ++ js) s = runInstrs js t := by
  induction is generalizing s with
  | nil => cases h; rfl
  | cons i rest ih =>
    obtain ⟨u, hu, hr⟩ := runInstrs_cons_next h
    rw [List.cons_append, runInstrs_cons hu, ih hr]

end Sys2Proof.Machine
end

