-- ==== Sys2Proof/Tests/Slice0.lean ====
section
/-! SUPPORT. Tests with the expected results of 95_test_vectors.md (its test configuration TC), words written out from
30_encoding.md R77, and for each statement a witness of its hypotheses. -/

namespace Sys2Proof.Tests

open Sys2Proof.Machine Sys2Proof.Stated

/-! ### States under the test configuration -/

/-- The test configuration TC (92_eei_decisions.md D37). Its markers are not the hardware's. -/
def tc : Params :=
  { start1 := 0xA5, start2 := 0x5A, stop1 := 0xC3, stop2 := 0x3C, rxCap := 5120, timeoutReset := 300,
    tickPeriodMs := 1, txSpaceCheck := false }

/-- TC with the space check. -/
def tcSpace : Params := { tc with txSpaceCheck := true }

/-- TC with a buffer of one byte. -/
def tcOne : Params := { tc with rxCap := 1 }

/-- The reset state under TC. -/
def atReset : State := State.powerOn tc

/-- In framer state `st` of a frame with id 0x10. -/
def inState (st : DecoderState) : State := { atReset with rxState := st, rxId := some 0x10 }

/-- In `ReadLenHigh` after id 0x20 and this low byte. -/
def inLenHigh (lo : Half) : State := { inState .readLenHigh with rxId := some 0x20, rxLen := lo, rxCrc := 0x06E6 }

/-- RX-13's start state: two of three payload bytes stored. -/
def inData : State :=
  { inState .readData with rxLen := 3, rxIdx := 2, rxCrc := 0x8CF5, rxBuf := [(0, 0x01), (1, 0x02)] }

/-- `ReadCrc`, all three payload bytes of RX-20's frame stored. -/
def inCrc : State :=
  { inState .readCrc with
    rxLen := 3, rxIdx := 3, rxCrc := 0x9567, rxBuf := [(0, 0x01), (1, 0x02), (2, 0x03)] }

/-- RX-17's start state. -/
def inCrcHigh : State := { inCrc with rxCrcPhase := true, rxCrcLo := some 0x67 }

/-- RX-20's start state, but for the registry. -/
def inStop2 : State := { inCrc with rxState := .readStop2, rxCrcLo := some 0x67 }

/-- The same with id 0x10 registered. -/
def inStop2Reg : State := { inStop2 with reg := [(0x10, 0x0007)] }

/-- With these operations presented. -/
def presented (ops : List Op) : State := { atReset with ops := ops }

/-- A bare operation word. -/
def bare (w : OpWord) : Op := { word := w, payload := [], space := none }

/-- What `f` reads of the next state, if the outcome is one. -/
def nextIs {β : Type} (r : Result) (f : State → β) : Option β :=
  match r with
  | .next t => some (f t)
  | .fault _ => none
  | .refused _ => none

/-! ### Well-formedness refuses the ill-formed -/

theorem test_wellFormed_payload_too_long : (Instr.encode 0x01 2 [1, 2, 3] none).wellFormed tc = false := by decide
theorem test_wellFormed_payload_too_short : (Instr.encode 0x01 2 [1] none).wellFormed tc = false := by decide
theorem test_wellFormed_space_missing : (Instr.encode 0x01 2 [1, 2] none).wellFormed tcSpace = false := by decide
theorem test_wellFormed_space_unasked : (Instr.encode 0x01 2 [1, 2] (some 11)).wellFormed tc = false := by decide
theorem test_wellFormed_encode : (Instr.encode 0x01 2 [1, 2] (some 0)).wellFormed tcSpace = true := by decide

/-! ### Decoding: words written out from R77 -/

theorem test_decode_rxByte : decode (bare 0b00010000000000000000000010100101) = .ok (.rxByte 0xA5) := by decide
theorem test_decode_tick : decode (bare 0b00100000000000000000000000000000) = .ok .tick := by decide
theorem test_decode_crcInit : decode (bare 0b00110000000000000000000000000000) = .ok .crcInit := by decide
theorem test_decode_crcFeed : decode (bare 0b01000000000000000000000000110001) = .ok (.crcFeed 0x31) := by decide
theorem test_decode_crcUpdate :
    decode (bare 0b01010000000100100011010001010110) = .ok (.crcUpdate 0x1234 0x56) := by decide
theorem test_decode_encode :
    decode { word := 0b01100000000100000000000000000011, payload := [1, 2, 3], space := some 12 } =
      .ok (.encode 0x10 3 [1, 2, 3] (some 12)) := by decide
theorem test_decode_regSet : decode (bare 0b01110000000100000000000000000111) = .ok (.regSet 0x10 0x0007) := by decide
theorem test_decode_cfgTimeout : decode (bare 0b10000000000000000000011111010000) = .ok (.cfgTimeout 2000) := by decide
theorem test_decode_reset : decode (bare 0b11110000000000000000000000000000) = .ok .reset := by decide

/-- CT-3 and CT-4's ends. -/
theorem test_decode_reservedOpcode :
    decode (bare 0x00000000) = .error .reservedOpcode ∧ decode (bare 0x90000000) = .error .reservedOpcode ∧
    decode (bare 0xE0000000) = .error .reservedOpcode := by decide

/-- CT-5 to CT-8. -/
theorem test_decode_reservedBits :
    decode (bare 0x10000100) = .error .reservedBits ∧ decode (bare 0x20000001) = .error .reservedBits ∧
    decode (bare 0x51000000) = .error .reservedBits ∧ decode (bare 0x80010000) = .error .reservedBits := by decide

/-- R83's examples, and its comment. -/
theorem test_text :
    readLine "RX_BYTE 0xA5 ; a comment".toList = some (some (.rxByte 0xA5)) ∧
    readLine "CRC_UPDATE 0x1234, 0x56".toList = some (some (.crcUpdate 0x1234 0x56)) ∧
    readLine "ENCODE 0x10, [0x01, 0x02, 0x03]".toList = some (some (.encode 0x10 3 [1, 2, 3] none)) ∧
    readLine "ENCODE 0x10, [0x01], space=5".toList = some (some (.encode 0x10 1 [1] (some 5))) ∧
    instrText (.cfgTimeout 0x07D0) = "CFG_TIMEOUT 0x07D0".toList := by decide

/-! ### The first step after reset -/

theorem test_first_step_encode (w : Nat) (hw : w = 0x60100003) :
    ∃ t, step (State.reset.withFetchWord 32 w) = .next t := by subst hw; exact ⟨_, rfl⟩

theorem test_first_step_cfgTimeout :
    nextIs (step (State.reset.withFetchWord 32 0x800007D0)) (fun t => t.timeoutMs) = some 2000 := by rfl

/-! ### One step of each operation -/

/-- RX-8: the length equal to the capacity. -/
theorem test_rxByte_length_at_capacity :
    nextIs (exec (.rxByte 0x14) (inLenHigh 0x00)) (fun t => (t.rxState, t.rxLen, t.rxCrc)) =
      some (.readData, 5120, 0xD473) := by decide +kernel

/-- RX-20. -/
theorem test_rxByte_frame_completes :
    nextIs (exec (.rxByte 0x3C) inStop2Reg) (fun t => (t.rxState, t.rxBuf, t.outputs)) =
      some (.awaitStart1, [],
        [.rxOut .frameComplete (some ⟨0x10, [1, 2, 3]⟩) (some ⟨0x10, 0x0007, [1, 2, 3]⟩)]) := by decide

/-- RX-23. -/
theorem test_tick_at_limit :
    nextIs (exec .tick { inState .readId with tmoElapsed := 299 }) (fun t => (t.tmoElapsed, t.outputs)) =
      some (300, [.rxOut .awaitingMore none none]) := by decide

/-- RX-26: the timeout fires in `AwaitStart2`. -/
theorem test_tick_past_limit :
    nextIs (exec .tick { inState .awaitStart2 with tmoElapsed := 300 }) (fun t => (t.rxState, t.outputs)) =
      some (.awaitStart1, [.rxOut .timeout none none]) := by decide

/-- CRC-19. -/
theorem test_crcInit :
    nextIs (exec .crcInit { atReset with crcAcc := 0x31C3 }) (fun t => (t.crcAcc, t.outputs)) =
      some (0x0000, [.crcOut 0x0000]) := by decide

/-- CRC-20. -/
theorem test_crcFeed :
    nextIs (exec (.crcFeed 0x31) atReset) (fun t => (t.crcAcc, t.outputs)) =
      some (0x2672, [.crcOut 0x2672]) := by decide +kernel

/-- CRC-7 and CRC-10. -/
theorem test_crcUpdate :
    nextIs (exec (.crcUpdate 0x1234 0x56) atReset) (fun t => (t.crcAcc, t.outputs)) =
      some (0x0000, [.crcOut 0x3C40]) ∧
    nextIs (exec (.crcUpdate 0x31C3 0x31) atReset) (fun t => t.outputs) = some [.crcOut 0xC300] := by decide +kernel

/-- TX-3. -/
theorem test_encode_frame :
    nextIs (exec (.encode 0x10 3 [0x01, 0x02, 0x03] none) atReset) (fun t => t.outputs) =
      some [.txOut .success [0xA5, 0x5A, 0x10, 0x03, 0x00, 0x01, 0x02, 0x03, 0x67, 0x95, 0xC3, 0x3C]] := by
  decide +kernel

/-- TX-8 and TX-9. -/
theorem test_encode_space :
    nextIs (exec (.encode 0x42 2 [0x48, 0x69] (some 10)) (State.powerOn tcSpace)) (fun t => t.outputs) =
      some [.txOut .insufficientSpace []] ∧
    nextIs (exec (.encode 0x42 2 [0x48, 0x69] (some 11)) (State.powerOn tcSpace)) (fun t => t.outputs) =
      some [.txOut .success [0xA5, 0x5A, 0x42, 0x02, 0x00, 0x48, 0x69, 0x69, 0xC1, 0xC3, 0x3C]] := by
  decide +kernel

/-- DS-2. -/
theorem test_regSet_last_write_wins :
    nextIs (exec (.regSet 0x10 0x0009) { atReset with reg := [(0x10, 0x0007)] })
      (fun t => (regValid t.reg 0x10, regTag t.reg 0x10, t.outputs)) = some (true, some 0x0009, [.ack]) := by decide

/-- CT-1. -/
theorem test_cfgTimeout :
    nextIs (exec (.cfgTimeout 0x07D0) atReset) (fun t => (t.timeoutMs, t.outputs)) = some (2000, [.ack]) := by decide

/-- CT-2 and DS-7. -/
theorem test_reset :
    nextIs (exec .reset { inData with timeoutMs := 2000, reg := [(0x10, 0x0007)] })
      (fun t => (t.rxState, t.timeoutMs, regValid t.reg 0x10, t.outputs)) =
        some (.awaitStart1, 300, false, [.ack]) := by decide

/-- A next state and the one output emitted on the way to it. -/
theorem next_of_outputs {r : Result} {s : State} {o : Output}
    (h : nextIs r (fun t => t.outputs) = some (s.outputs ++ [o])) : ∃ t, r = .next t ∧ emitted s t o := by
  cases r with
  | next t => exact ⟨t, rfl, Option.some.inj h⟩
  | fault f => cases h
  | refused f => cases h

/-! ### Witnesses: for each statement with hypotheses, operands and states that meet them, clause by clause -/

theorem witness_DecodingExtractsTheFields :
    (definedWord (bare 0x10000000) ∧ opNibble (bare 0x10000000) = 0x1) ∧
    (definedWord (bare 0x100000FF) ∧ opNibble (bare 0x100000FF) = 0x1) ∧
    (definedWord (bare 0x20000000) ∧ opNibble (bare 0x20000000) = 0x2) ∧
    (definedWord (bare 0x30000000) ∧ opNibble (bare 0x30000000) = 0x3) ∧
    (definedWord (bare 0x400000FF) ∧ opNibble (bare 0x400000FF) = 0x4) ∧
    (definedWord (bare 0x50FFFFFF) ∧ opNibble (bare 0x50FFFFFF) = 0x5) ∧
    (definedWord (bare 0x60FFFFFF) ∧ opNibble (bare 0x60FFFFFF) = 0x6) ∧
    (definedWord (bare 0x70FFFFFF) ∧ opNibble (bare 0x70FFFFFF) = 0x7) ∧
    (definedWord (bare 0x8000FFFF) ∧ opNibble (bare 0x8000FFFF) = 0x8) ∧
    (definedWord (bare 0xF0000000) ∧ opNibble (bare 0xF0000000) = 0xF) := by
  refine ⟨⟨⟨_, rfl, ?_⟩, ?_⟩, ⟨⟨_, rfl, ?_⟩, ?_⟩, ⟨⟨_, rfl, ?_⟩, ?_⟩, ⟨⟨_, rfl, ?_⟩, ?_⟩, ⟨⟨_, rfl, ?_⟩, ?_⟩,
    ⟨⟨_, rfl, ?_⟩, ?_⟩, ⟨⟨_, rfl, ?_⟩, ?_⟩, ⟨⟨_, rfl, ?_⟩, ?_⟩, ⟨⟨_, rfl, ?_⟩, ?_⟩, ⟨_, rfl, ?_⟩, ?_⟩ <;> decide

theorem witness_ReservedWordsAreRefused :
    opNibble (bare 0x0FFFFFFF) = 0x0 ∧ opNibble (bare 0x90000000) = 0x9 ∧ opNibble (bare 0xEFFFFFFF) = 0xE ∧
    (∃ m, reservedMask (opNibble (bare 0x10000100)) = some m ∧ (bare 0x10000100).word &&& m ≠ 0) ∧
    (∃ m, reservedMask (opNibble (bare 0xF8000000)) = some m ∧ (bare 0xF8000000).word &&& m ≠ 0) ∧
    decode (bare 0x90000000) = .error .reservedOpcode := by
  refine ⟨by decide, by decide, by decide, ⟨_, rfl, by decide⟩, ⟨_, rfl, by decide⟩, by decide⟩

theorem witness_EncodeOfDecode :
    decode { word := 0x60100003, payload := [1, 2, 3], space := some 12 } =
      .ok (.encode 0x10 3 [1, 2, 3] (some 12)) := by decide

theorem witness_TextReadsBack : ∀ id n payload space,
    Instr.encode 0x10 1 [0xAB] (some 64) = .encode id n payload space → payload.length = n.toNat := by
  intro id n payload space h
  cases h
  rfl

theorem witness_StepRunsTheDecodedOperation :
    (presented [bare 0x20000000, bare 0x30000000]).ops = bare 0x20000000 :: [bare 0x30000000] ∧
    decode (bare 0x20000000) = .ok .tick ∧ (presented []).ops = [] := by decide

theorem witness_RefusedOperationOnlySetsTheMark :
    (presented [bare 0x90000000]).ops = bare 0x90000000 :: [] ∧
    decode (bare 0x90000000) = .error .reservedOpcode ∧
    ([1, 2, 3] : List Byte).length ≠ (2 : Half).toNat ∧
    (([1, 2] : List Byte).length = (2 : Half).toNat ∧ (some 11 : Option Nat).isSome ≠ atReset.params.txSpaceCheck) ∧
    (([] : List Byte).length = (0 : Half).toNat ∧
      (none : Option Nat).isSome ≠ (State.powerOn tcSpace).params.txSpaceCheck) := by decide

theorem witness_PresentedOperationsRunInOrder :
    (presented [bare 0x20000000, bare 0x30000000]).ops = [Instr.tick].map encode ++ [bare 0x30000000] := by decide

theorem witness_NoStepChangesTheParameters : ∃ t, step (presented [bare 0xF0000000]) = .next t := ⟨_, rfl⟩

theorem witness_RefusedMarkIsSticky :
    (∃ t, step { presented [bare 0xF0000000] with refused := true } = .next t) ∧
    ({ presented [bare 0xF0000000] with refused := true } : State).refused = true ∧
    (∃ t, step (presented [bare 0x90000000]) = .next t ∧ t.refused = true) ∧
    (presented [bare 0x90000000]).refused = false := by
  refine ⟨⟨_, rfl⟩, by decide, ⟨_, rfl, by decide⟩, by decide⟩

theorem witness_EveryOperationEmitsOneOutput :
    (∃ t, exec (.encode 0x01 1 [] none) atReset = .next t) ∧ (∃ t, exec (.rxByte 0x3C) inStop2Reg = .next t) ∧
    (∃ t, exec .tick atReset = .next t) ∧ (∃ t, exec .crcInit atReset = .next t) ∧
    (∃ t, exec (.crcFeed 0) atReset = .next t) ∧ (∃ t, exec (.crcUpdate 0 0) atReset = .next t) ∧
    (∃ t, exec (.encode 0x01 0 [] none) atReset = .next t) ∧ (∃ t, exec (.regSet 1 1) atReset = .next t) ∧
    (∃ t, exec (.cfgTimeout 0) atReset = .next t) ∧ (∃ t, exec .reset atReset = .next t) :=
  ⟨⟨_, rfl⟩, ⟨_, rfl⟩, ⟨_, rfl⟩, ⟨_, rfl⟩, ⟨_, rfl⟩, ⟨_, rfl⟩, ⟨_, rfl⟩, ⟨_, rfl⟩, ⟨_, rfl⟩, ⟨_, rfl⟩⟩

/-- Each receive result with the operation and the state that give it: RX-9, RX-14, RX-19, RX-20, RX-21, RX-24. -/
theorem witness_ReceiveResultsAndTheirSources :
    (∃ t, exec (.rxByte 0x14) (inLenHigh 0x01) = .next t ∧
      emitted (inLenHigh 0x01) t (.rxOut .badLength none none)) ∧
    (∃ t, exec (.rxByte 0x94) inCrcHigh = .next t ∧
      emitted inCrcHigh t (.rxOut .crcMismatch none none)) ∧
    (∃ t, exec (.rxByte 0xA5) (inState .readStop1) = .next t ∧
      emitted (inState .readStop1) t (.rxOut .badStopByte none none)) ∧
    (∃ t, exec (.rxByte 0x00) inStop2 = .next t ∧
      emitted inStop2 t (.rxOut .badStopByte none none)) ∧
    (∃ t, exec (.rxByte 0x3C) inStop2Reg = .next t ∧
      emitted inStop2Reg t (.rxOut .frameComplete (some ⟨0x10, [1, 2, 3]⟩) (some ⟨0x10, 0x0007, [1, 2, 3]⟩))) ∧
    (∃ t, exec .tick { inData with tmoElapsed := 300 } = .next t ∧
      emitted inData t (.rxOut .timeout none none)) :=
  ⟨next_of_outputs (by decide), next_of_outputs (by decide), next_of_outputs (by decide),
    next_of_outputs (by decide), next_of_outputs (by decide), next_of_outputs (by decide)⟩

theorem witness_CrcUpdateResult :
    (opNibble (bare 0x51000000) = 0x5 ∧ (bare 0x51000000).word.toNat / 2 ^ 24 % 2 ^ 4 ≠ 0) ∧
    (opNibble (bare 0x50FFFFFF) = 0x5 ∧ (bare 0x50FFFFFF).word.toNat / 2 ^ 24 % 2 ^ 4 = 0) := by decide

theorem witness_CrcInitResult :
    (opNibble (bare 0x30000001) = 0x3 ∧ (bare 0x30000001).word ≠ 0x30000000) ∧
    (opNibble (bare 0x30000000) = 0x3 ∧ (bare 0x30000000).word = 0x30000000) := by decide

theorem witness_CrcFeedResult :
    (opNibble (bare 0x40000100) = 0x4 ∧ (bare 0x40000100).word.toNat / 2 ^ 8 % 2 ^ 20 ≠ 0) ∧
    (opNibble (bare 0x400000FF) = 0x4 ∧ (bare 0x400000FF).word.toNat / 2 ^ 8 % 2 ^ 20 = 0) := by decide

theorem witness_CrcOperationsAreIsolated :
    (Instr.crcFeed 0x31 = .crcInit ∨ (∃ b, Instr.crcFeed 0x31 = .crcFeed b) ∨
      ∃ c b, Instr.crcFeed 0x31 = .crcUpdate c b) ∧ atReset.crcAcc = inData.crcAcc :=
  ⟨.inr (.inl ⟨0x31, rfl⟩), rfl⟩

theorem witness_RxByteScope :
    (opNibble (bare 0x18000000) = 0x1 ∧ (bare 0x18000000).word.toNat / 2 ^ 8 % 2 ^ 20 ≠ 0) ∧
    (opNibble (bare 0x100000FF) = 0x1 ∧ (bare 0x100000FF).word.toNat / 2 ^ 8 % 2 ^ 20 = 0) ∧
    ∃ t, exec (.rxByte 0x03) inData = .next t :=
  ⟨by decide, by decide, ⟨_, rfl⟩⟩

/-- RX-1 to RX-4. -/
theorem witness_RxStartMarkers :
    (atReset.rxState = .awaitStart1 ∧ (0xA5 : Byte) = atReset.params.start1 ∧ (0x5A : Byte) ≠ atReset.params.start1) ∧
    ((inState .awaitStart2).rxState = .awaitStart2 ∧ (0x5A : Byte) = (inState .awaitStart2).params.start2 ∧
      (0xA5 : Byte) ≠ (inState .awaitStart2).params.start2) := by decide

/-- RX-8, RX-9 and RX-10: the lengths `RX_CAP`, `RX_CAP + 1`, 0; and 1. -/
theorem witness_RxHeader :
    (inState .readId).rxState = .readId ∧ (inState .readLenLow).rxState = .readLenLow ∧
    (5120 = (0x14 : Byte).toNat * 256 + (inLenHigh 0x00).rxLen.toNat % 256 ∧
      (inLenHigh 0x00).rxState = .readLenHigh ∧ 0 < 5120 ∧ 5120 ≤ (inLenHigh 0x00).params.rxCap.val) ∧
    (1 = (0x00 : Byte).toNat * 256 + (inLenHigh 0x01).rxLen.toNat % 256 ∧ 1 ≤ (inLenHigh 0x01).params.rxCap.val) ∧
    (0 = (0x00 : Byte).toNat * 256 + (inLenHigh 0x00).rxLen.toNat % 256) ∧
    (5121 = (0x14 : Byte).toNat * 256 + (inLenHigh 0x01).rxLen.toNat % 256 ∧
      (inLenHigh 0x01).params.rxCap.val < 5121) := by decide

/-- The last payload byte, and one that is not. -/
theorem witness_RxPayloadByte :
    (inData.rxState = .readData ∧ inData.rxIdx.toNat < inData.params.rxCap.val ∧
      inData.rxIdx.toNat + 1 = inData.rxLen.toNat) ∧
    (({ inData with rxLen := 5120 } : State).rxIdx.toNat + 1 ≠ ({ inData with rxLen := 5120 } : State).rxLen.toNat) ∧
    (({ inData with rxIdx := 5119 } : State).rxIdx.toNat < inData.params.rxCap.val) := by decide

/-- RX-16, RX-17, and a high byte that does not match. -/
theorem witness_RxCrcCheck :
    (inCrc.rxState = .readCrc ∧ inCrc.rxCrcPhase = false) ∧
    (inCrcHigh.rxState = .readCrc ∧ inCrcHigh.rxCrcPhase = true ∧ inCrcHigh.rxCrcLo = some 0x67 ∧
      (0x95 : Byte).toNat * 256 + (0x67 : Byte).toNat = inCrcHigh.rxCrc.toNat ∧
      (0x94 : Byte).toNat * 256 + (0x67 : Byte).toNat ≠ inCrcHigh.rxCrc.toNat) := by decide

/-- RX-18, RX-19, RX-21. -/
theorem witness_RxStopMarkers :
    ((inState .readStop1).rxState = .readStop1 ∧ (0xC3 : Byte) = (inState .readStop1).params.stop1 ∧
      (0xA5 : Byte) ≠ (inState .readStop1).params.stop1) ∧
    (inStop2.rxState = .readStop2 ∧ (0x00 : Byte) ≠ inStop2.params.stop2) := by decide

/-- The payload of RX-20 stands in the buffer. -/
theorem inStop2_holds (r : Registry) : bufferHolds { inStop2 with reg := r } [1, 2, 3] := by
  refine ⟨show 3 ≤ 5120 by decide, fun k h => ?_⟩
  match k, h with
  | 0, _ => rfl
  | 1, _ => rfl
  | 2, _ => rfl

/-- RX-20 and DS-6; the empty frames of DS-3 and DS-4. -/
theorem witness_RxFrameCompletes :
    (inStop2.rxState = .readStop2 ∧ (0x3C : Byte) = inStop2.params.stop2 ∧ inStop2.rxId = some 0x10 ∧
      inStop2.rxLen.toNat = ([1, 2, 3] : List Byte).length) ∧
    bufferHolds inStop2 [1, 2, 3] ∧ regTag inStop2.reg 0x10 = none ∧
    bufferHolds inStop2Reg [1, 2, 3] ∧ regTag inStop2Reg.reg 0x10 = some 0x0007 ∧
    bufferHolds { inStop2 with rxLen := 0 } [] :=
  ⟨by decide, inStop2_holds _, by decide, inStop2_holds _, by decide, by decide, fun _ h => absurd h (Nat.not_lt_zero _)⟩

theorem witness_RxByteBufferFrame :
    ((∃ t, exec (.rxByte 0x03) inData = .next t) ∧ inData.rxState = .readData) ∧
    ((∃ t, exec (.rxByte 0xA5) atReset = .next t) ∧ atReset.rxState = .awaitStart1 ∧
      (0xA5 : Byte) = atReset.params.start1) ∧
    (∃ t, exec (.rxByte 0x94) inCrcHigh = .next t ∧ inCrcHigh.rxState ≠ .awaitStart1 ∧ t.rxState = .awaitStart1) ∧
    (∃ t, exec (.rxByte 0x95) inCrcHigh = .next t ∧ inCrcHigh.rxState ≠ .readData ∧
      inCrcHigh.rxState ≠ .awaitStart1 ∧ t.rxState ≠ .awaitStart1) ∧
    (∃ t, exec (.rxByte 0x00) atReset = .next t ∧ atReset.rxState ≠ .readData ∧
      (0x00 : Byte) ≠ atReset.params.start1 ∧ ¬(atReset.rxState ≠ .awaitStart1 ∧ t.rxState = .awaitStart1)) := by
  refine ⟨⟨⟨_, rfl⟩, by decide⟩, ⟨⟨_, rfl⟩, by decide⟩, ⟨_, rfl, by decide⟩, ⟨_, rfl, by decide⟩, ⟨_, rfl, by decide⟩⟩

/-- RX-22 to RX-24, at the limit and one past it, and the largest count. -/
theorem witness_TickResult :
    (opNibble (bare 0x20000001) = 0x2 ∧ (bare 0x20000001).word ≠ 0x20000000) ∧
    (opNibble (bare 0x20000000) = 0x2 ∧ (bare 0x20000000).word = 0x20000000) ∧
    atReset.rxState = .awaitStart1 ∧ inData.rxState ≠ .awaitStart1 ∧
    ({ inData with tmoElapsed := 299 } : State).tmoElapsed.toNat + 1 ≤ inData.timeoutMs.toNat ∧
    inData.timeoutMs.toNat < ({ inData with tmoElapsed := 300 } : State).tmoElapsed.toNat + 1 ∧
    ({ inData with timeoutMs := 65535 } : State).timeoutMs.toNat <
      ({ inData with tmoElapsed := 65535 } : State).tmoElapsed.toNat + 1 := by decide

theorem witness_SilenceYieldsOneTimeout :
    inData.rxState ≠ .awaitStart1 ∧ inData.tmoElapsed = 0 ∧ 300 ≤ inData.timeoutMs.toNat ∧
    inData.timeoutMs.toNat < 301 ∧ ({ inData with timeoutMs := 0 } : State).timeoutMs.toNat < 1 := by decide

theorem witness_TicksBetweenBytesDoNotMatter :
    (inData.tmoElapsed.toNat + 300 ≤ inData.timeoutMs.toNat ∧ atReset.rxState = .awaitStart1) ∧
    (∃ t, exec (.rxByte 0x03) inData = .next t) ∧ ∃ t, exec (.rxByte 0xA5) atReset = .next t :=
  ⟨by decide, ⟨_, rfl⟩, ⟨_, rfl⟩⟩

/-- The error results are those of `witness_ReceiveResultsAndTheirSources`; here the two moves to the stop bytes. -/
theorem witness_ErrorsAreRaisedOnlyByTheirRules :
    (∃ t, exec (.rxByte 0x14) (inLenHigh 0x01) = .next t ∧
      emitted (inLenHigh 0x01) t (.rxOut .badLength none none)) ∧
    (∃ t, exec (.rxByte 0x94) inCrcHigh = .next t ∧
      emitted inCrcHigh t (.rxOut .crcMismatch none none)) ∧
    (∃ t, exec (.rxByte 0x00) inStop2 = .next t ∧
      emitted inStop2 t (.rxOut .badStopByte none none)) ∧
    (∃ t, exec .tick { inData with tmoElapsed := 300 } = .next t ∧
      emitted inData t (.rxOut .timeout none none)) ∧
    (∃ t, exec (.rxByte 0x95) inCrcHigh = .next t ∧ t.rxState = .readStop1 ∧ inCrcHigh.rxState ≠ .readStop1) ∧
    (∃ t, exec (.rxByte 0xC3) (inState .readStop1) = .next t ∧ t.rxState = .readStop2 ∧
      (inState .readStop1).rxState ≠ .readStop2) :=
  ⟨next_of_outputs (by decide), next_of_outputs (by decide), next_of_outputs (by decide),
    next_of_outputs (by decide), ⟨_, rfl, by decide⟩, ⟨_, rfl, by decide⟩⟩

theorem witness_ErrorLeavesNoPartialFrame :
    ∃ t, exec (.rxByte 0x94) inCrcHigh = .next t ∧
      emitted inCrcHigh t (.rxOut LinkError.crcMismatch.code none none) :=
  next_of_outputs (by decide)

theorem witness_TickAndByteInEitherOrder :
    ∃ t, exec (.rxByte 0x03) { inData with tmoElapsed := 300 } = .next t ∧ inData.rxState ≠ .awaitStart1 ∧
      inData.timeoutMs.toNat < ({ inData with tmoElapsed := 300 } : State).tmoElapsed.toNat + 1 ∧
      0 < inData.timeoutMs.toNat :=
  ⟨_, rfl, by decide⟩

theorem witness_RegSetResult :
    (opNibble (bare 0x71000000) = 0x7 ∧ (bare 0x71000000).word.toNat / 2 ^ 24 % 2 ^ 4 ≠ 0) ∧
    (opNibble (bare 0x70FFFFFF) = 0x7 ∧ (bare 0x70FFFFFF).word.toNat / 2 ^ 24 % 2 ^ 4 = 0) ∧
    (∃ t, exec (.regSet 0x11 0x0001) inStop2Reg = .next t) ∧ Instr.regSet 0x11 0x0001 ≠ .reset ∧
    regValid inStop2Reg.reg 0x10 = true :=
  ⟨by decide, by decide, ⟨_, rfl⟩, by decide, by decide⟩

theorem witness_OnlyCompletedFramesAreDispatched :
    regTag inStop2Reg.reg 0x10 = some 0x0007 ∧ regTag inStop2.reg 0x10 = none ∧
    ∃ t, exec (.rxByte 0x3C) inStop2Reg = .next t ∧
      emitted inStop2Reg t (.rxOut .frameComplete (some ⟨0x10, [1, 2, 3]⟩) (some ⟨0x10, 0x0007, [1, 2, 3]⟩)) :=
  ⟨by decide, by decide, next_of_outputs (by decide)⟩

/-- TX-8 and TX-9: one byte short of the space, and just enough; TX-10; a reserved bit. -/
theorem witness_EncodeResult :
    (([0x48, 0x69] : List Byte).length = (2 : Half).toNat ∧
      (some 10 : Option Nat).isSome = (State.powerOn tcSpace).params.txSpaceCheck ∧ 10 < 9 + (2 : Half).toNat ∧
      9 + (2 : Half).toNat ≤ 11 ∧ (none : Option Nat).isSome = atReset.params.txSpaceCheck) ∧
    ([1, 2, 3] : List Byte).length ≠ (2 : Half).toNat ∧
    (opNibble (bare 0x68000000) = 0x6 ∧ (bare 0x68000000).word.toNat / 2 ^ 24 % 2 ^ 4 ≠ 0) ∧
    (opNibble (bare 0x60FFFFFF) = 0x6 ∧ (bare 0x60FFFFFF).word.toNat / 2 ^ 24 % 2 ^ 4 = 0) := by decide

theorem witness_SpaceCheckIsAllOrNothing :
    (Instr.encode 0x42 2 [0x48, 0x69] (some 10)).wellFormed (State.powerOn tcSpace).params = true ∧
    (Instr.encode 0x42 2 [0x48, 0x69] none).wellFormed atReset.params = true := by decide

theorem witness_OverlongFrameIsRejectedByItsReceiver :
    (State.powerOn tcOne).rxState = .awaitStart1 ∧ ([0x00, 0x01] : List Byte).length = (2 : Half).toNat ∧
    (State.powerOn tcOne).params.rxCap.val < ([0x00, 0x01] : List Byte).length ∧
    (State.powerOn tcOne).params.txSpaceCheck = false := by decide

theorem witness_EncodeIsIndependentOfTheState :
    atReset.params = inData.params ∧ (Instr.encode 0x01 0 [] none).wellFormed atReset.params = true := by decide

/-- TX-1, with the longest silences allowed between its bytes and a longer one before the first. -/
theorem witness_EncodedFrameDecodes :
    (∃ t, exec (.encode 0x01 0 [] none) atReset = .next t ∧
      emitted atReset t (.txOut .success [0xA5, 0x5A, 0x01, 0x00, 0x00, 0x30, 0x37, 0xC3, 0x3C])) ∧
    atReset.params = atReset.params ∧ ([] : List Byte).length ≤ atReset.params.rxCap.val ∧
    atReset.rxState = .awaitStart1 ∧
    ([1000, 300, 300, 0, 1, 300, 0, 0, 300] : List Nat).length =
      ([0xA5, 0x5A, 0x01, 0x00, 0x00, 0x30, 0x37, 0xC3, 0x3C] : List Byte).length ∧
    ∀ g ∈ ([1000, 300, 300, 0, 1, 300, 0, 0, 300] : List Nat).tail, g ≤ atReset.timeoutMs.toNat :=
  ⟨next_of_outputs (by decide +kernel), rfl, by decide, by decide, by decide, by decide⟩

/-- DS-4's frame, a byte of noise before it. -/
theorem witness_CompletedFrameWasOnTheWire :
    atReset.rxState = .awaitStart1 ∧
    nextIs (runInstrs (rxStreamOps [0x00, 0xA5, 0x5A, 0x02, 0x00, 0x00, 0x60, 0x6E, 0xC3, 0x3C]) atReset)
      (fun t => t.outputs.getLast?) = some (some (.rxOut .frameComplete (some ⟨0x02, []⟩) none)) := by
  decide +kernel

/-- CT-9 and RX-25: lowered below the count, zero, and raised. -/
theorem witness_CfgTimeoutResult :
    (opNibble (bare 0x80010000) = 0x8 ∧ (bare 0x80010000).word.toNat / 2 ^ 16 % 2 ^ 12 ≠ 0) ∧
    (opNibble (bare 0x8000FFFF) = 0x8 ∧ (bare 0x8000FFFF).word.toNat / 2 ^ 16 % 2 ^ 12 = 0) ∧
    ({ inData with tmoElapsed := 250 } : State).rxState ≠ .awaitStart1 ∧
    (100 : Half).toNat < ({ inData with tmoElapsed := 250 } : State).tmoElapsed.toNat ∧
    ({ inData with tmoElapsed := 250 } : State).tmoElapsed.toNat < (251 : Half).toNat := by decide

theorem witness_ResetResult :
    (opNibble (bare 0xF0000001) = 0xF ∧ (bare 0xF0000001).word ≠ 0xF0000000) ∧
    (opNibble (bare 0xF0000000) = 0xF ∧ (bare 0xF0000000).word = 0xF0000000) := by decide

theorem witness_ResetValues : ∃ t, exec .reset { inData with refused := true } = .next t := ⟨_, rfl⟩

theorem witness_OperationsKeepToTheirRegion :
    (∃ t, exec (.regSet 0x10 0x0007) inData = .next t) ∧ (∀ b, Instr.regSet 0x10 0x0007 ≠ .rxByte b) ∧
    Instr.regSet 0x10 0x0007 ≠ .tick ∧ Instr.regSet 0x10 0x0007 ≠ .reset ∧
    (∀ v, Instr.regSet 0x10 0x0007 ≠ .cfgTimeout v) ∧ Instr.regSet 0x10 0x0007 ≠ .crcInit ∧
    (∀ b, Instr.regSet 0x10 0x0007 ≠ .crcFeed b) ∧ (∃ t, exec (.rxByte 0x03) inData = .next t) ∧
    ∀ id tag, Instr.rxByte 0x03 ≠ .regSet id tag :=
  ⟨⟨_, rfl⟩, nofun, nofun, nofun, nofun, nofun, nofun, ⟨_, rfl⟩, nofun⟩

/-- A state in the middle of a payload meets the invariants, with an operation presented. -/
theorem inData_inv (o : List Op) (e : Half) : Inv { inData with ops := o, tmoElapsed := e } where
  period := Nat.one_pos
  bufWf := show Memory.wf [(0, 0x01), (1, 0x02)] = true by decide
  regWf := rfl
  lenFits _ := show 3 ≤ 5120 by decide
  idxInData _ := show 2 < 3 by decide
  idxAfterData h := by rcases h with h | h | h <;> cases h
  idxBeforeData h := by cases h
  lenHighZero h := by cases h
  cells a := by
    match a with
    | 0 => exact ⟨fun _ => show 0 < 2 by decide, fun _ => rfl⟩
    | 1 => exact ⟨fun _ => show 1 < 2 by decide, fun _ => rfl⟩
    | a + 2 =>
      constructor
      · intro h; cases h
      · intro h; exact absurd h (by show ¬a + 2 < 2; omega)
  idle h := by cases h
  idHeld _ := rfl
  crcLoHeld h := by cases h
  refusalKept := rfl

theorem witness_EveryStepKeepsTheInvariants :
    Inv { inData with ops := [bare 0x10000003], tmoElapsed := 0 } ∧
    ∃ t, step { inData with ops := [bare 0x10000003], tmoElapsed := 0 } = .next t :=
  ⟨inData_inv _ _, _, rfl⟩

theorem witness_InvariantsHoldAtPowerOn : tc.wf := by decide

theorem witness_NoFaultUnderTheInvariants : Inv { inData with ops := [bare 0x10000003], tmoElapsed := 300 } :=
  inData_inv _ _

/-- RX-13's start state: the CRC of the id, the length 3 and the first two payload bytes is 0x8CF5. -/
theorem witness_RunningCrcCoversTheFrame :
    Inv { inData with ops := [bare 0x10000003], tmoElapsed := 0 } ∧
    CrcCoversFrame { inData with ops := [bare 0x10000003], tmoElapsed := 0 } ∧
    ∃ t, step { inData with ops := [bare 0x10000003], tmoElapsed := 0 } = .next t :=
  ⟨inData_inv _ _, ⟨[0x10, 0x03, 0x00, 0x01, 0x02], rfl, by decide +kernel⟩, _, rfl⟩

theorem witness_ElapsedStaysWithinTheTimeout : Inv { inData with ops := [], tmoElapsed := 65535 } :=
  inData_inv _ _

theorem witness_BrokenInvariantsFault :
    (inCrcHigh.rxState = .readCrc ∧ inCrcHigh.rxCrcPhase = true ∧
      ({ inCrcHigh with rxCrcLo := none } : State).rxCrcLo = none) ∧
    (inStop2.rxState = .readStop2 ∧ (0x3C : Byte) = inStop2.params.stop2 ∧
      ({ inStop2 with rxId := none } : State).rxId = none) ∧
    (0 < inStop2.rxLen.toNat ∧ 0 < inStop2.params.rxCap.val ∧ ({ inStop2 with rxBuf := [] } : State).rxBuf.read 0 = none) ∧
    (inData.rxState = .readData ∧
      inData.params.rxCap.val ≤ ({ inData with rxIdx := 5120 } : State).rxIdx.toNat) := by decide

end Sys2Proof.Tests
end

section
/-! The statements of 00_scope.md: a step runs the decoded operation (R11), and no step changes a parameter (R5). -/

namespace Sys2Proof.Machine

variable {b : Byte} {i : Instr} {s t : State}

/-! ### What a step runs -/

/-- 60_exceptions.md R218. -/
theorem step_of_ops_nil (h : s.ops = []) : step s = .next s := by
  simp only [step, h]

/-- 00_scope.md R11. -/
theorem step_of_decode_ok {op : Op} {rest : List Op} (h : s.ops = op :: rest) (hd : decode op = .ok i) :
    step s = exec i { s with ops := rest } := by
  simp only [step, h, hd]

/-- Settles O7, by the two equations of `step`. -/
theorem stepRunsTheDecodedOperation : Obligations.StepRunsTheDecodedOperation :=
  fun _ => ⟨fun _ _ _ h hd => step_of_decode_ok h hd, step_of_ops_nil⟩

/-! ### What keeps the parameters -/

@[simp] theorem payloadStored_params (b : Byte) (s : State) : (payloadStored b s).params = s.params := rfl

/-- No rule of `RX_BYTE` writes a parameter: each leaves an emission over the old state, the framer's reset or an error,
with other fields updated. -/
theorem RxRule.params_eq (h : RxRule b s t) : t.params = s.params := by
  cases h with
  | resync | frameComplete => rw [emit_params, framerReset_params]
  | badLength | crcMismatch | badStop1 | badStop2 => rw [raiseError_params]
  | lastPayloadByte | payloadByte => exact payloadStored_params b s
  | _ => rw [emit_params]

theorem execTick_params (h : execTick s = .next t) : t.params = s.params := by
  rcases execTick_cases s with ⟨-, e⟩ | ⟨-, -, e⟩ | ⟨-, -, e⟩ <;> rw [e] at h <;> cases h
  · rw [emit_params]
  · rw [emit_params]
  · rw [raiseError_params]

theorem afterEncode_params (id : Byte) (n : Half) (payload : List Byte) (space : Option Nat) (s : State) :
    (afterEncode id n payload space s).params = s.params := by
  rcases afterEncode_cases id n payload space s with ⟨r, -, e⟩ | ⟨-, e⟩
  · rw [e, refuse_params]
  · rw [e, emit_params]

/-- 00_scope.md R5, for one operation. -/
theorem exec_params (h : exec i s = .next t) : t.params = s.params := by
  cases i with
  | rxByte b => exact (execRxByte_rule h).params_eq
  | tick => exact execTick_params h
  | encode id n payload space => cases h; exact afterEncode_params id n payload space s
  | crcInit | crcFeed | crcUpdate | regSet | cfgTimeout => cases h; rw [emit_params]
  | reset => cases h; exact framerReset_params s

/-- Settles O10, by the three things a step can do: stand idle, refuse the word, or run an operation. -/
theorem noStepChangesTheParameters : Obligations.NoStepChangesTheParameters := by
  intro s t h
  rcases step_cases h with ⟨-, rfl⟩ | ⟨op, rest, r, -, -, rfl⟩ | ⟨op, rest, i, -, -, he⟩
  · rfl
  · rw [refuse_params]
  · exact exec_params (s := { s with ops := rest }) he

end Sys2Proof.Machine
end

section
/-! The invariants of 10_state.md R39, parted into what holds in every framer state (`StoreInv`) and what each framer
state asks for itself (`PhaseInv`). -/

namespace Sys2Proof.Machine

variable {b : Byte} {s t : State}

/-- The part of `Inv` that does not look at `rx_state`. -/
structure StoreInv (s : State) : Prop where
  period : s.params.wf
  bufWf : s.rxBuf.wf = true
  regWf : s.reg.wf = true
  cells : ∀ a : Nat, (s.rxBuf.read a).isSome = true ↔ a < s.rxIdx.toNat
  refusalKept : s.refused = s.lastRefusal.isSome

/-- No payload byte has been stored, and `rx_len` has no high byte yet. -/
def BeforePayload (s : State) : Prop := s.rxIdx = 0 ∧ s.rxLen.toNat < 256

/-- The whole payload is stored and its frame id held. -/
def PayloadComplete (s : State) : Prop :=
  s.rxLen.toNat ≤ s.params.rxCap.val ∧ s.rxIdx = s.rxLen ∧ s.rxId.isSome = true

/-- The part of `Inv` that looks at `rx_state`, by framer state. -/
def PhaseInv (s : State) : Prop :=
  match s.rxState with
  | .awaitStart1 => BeforePayload s ∧ s.tmoElapsed = 0
  | .awaitStart2 | .readId => BeforePayload s
  | .readLenLow | .readLenHigh => BeforePayload s ∧ s.rxId.isSome = true
  | .readData => s.rxLen.toNat ≤ s.params.rxCap.val ∧ s.rxIdx.toNat < s.rxLen.toNat ∧ s.rxId.isSome = true
  | .readCrc => PayloadComplete s ∧ (s.rxCrcPhase = true → s.rxCrcLo.isSome = true)
  | .readStop1 | .readStop2 => PayloadComplete s

theorem Inv.store (h : Inv s) : StoreInv s := ⟨h.period, h.bufWf, h.regWf, h.cells, h.refusalKept⟩

theorem Inv.phase (h : Inv s) : PhaseInv s := by
  have before : s.rxState.pastHeader = false → BeforePayload s := fun e => ⟨h.idxBeforeData e, h.lenHighZero e⟩
  have complete (e : s.rxState = .readCrc ∨ s.rxState = .readStop1 ∨ s.rxState = .readStop2)
      (e1 : s.rxState.pastHeader = true) (e2 : s.rxState.pastId = true) : PayloadComplete s :=
    ⟨h.lenFits e1, h.idxAfterData e, h.idHeld e2⟩
  unfold PhaseInv
  cases hs : s.rxState <;> rw [hs] at before complete
  case awaitStart1 => exact ⟨before rfl, h.idle hs⟩
  case awaitStart2 | readId => exact before rfl
  case readLenLow | readLenHigh => exact ⟨before rfl, h.idHeld (by rw [hs]; rfl)⟩
  case readData => exact ⟨h.lenFits (by rw [hs]; rfl), h.idxInData hs, h.idHeld (by rw [hs]; rfl)⟩
  case readCrc => exact ⟨complete (.inl rfl) rfl rfl, h.crcLoHeld hs⟩
  case readStop1 => exact complete (.inr (.inl rfl)) rfl rfl
  case readStop2 => exact complete (.inr (.inr rfl)) rfl rfl

/-- Each field of `Inv` asks for a fact of some framer states, and `PhaseInv` gives it in each of them. -/
theorem inv_iff : Inv s ↔ StoreInv s ∧ PhaseInv s := by
  refine ⟨fun h => ⟨h.store, h.phase⟩, fun ⟨hst, hph⟩ => ?_⟩
  unfold PhaseInv at hph
  refine
    { period := hst.period, bufWf := hst.bufWf, regWf := hst.regWf, cells := hst.cells
      refusalKept := hst.refusalKept, lenFits := ?_, idxInData := ?_, idxAfterData := ?_, idxBeforeData := ?_
      lenHighZero := ?_, idle := ?_, idHeld := ?_, crcLoHeld := ?_ } <;>
    cases hs : s.rxState <;>
    simp_all [BeforePayload, PayloadComplete, DecoderState.pastHeader, DecoderState.pastId]

theorem phaseInv_readData (h : s.rxState = .readData) : PhaseInv s ↔
    s.rxLen.toNat ≤ s.params.rxCap.val ∧ s.rxIdx.toNat < s.rxLen.toNat ∧ s.rxId.isSome = true := by
  rw [PhaseInv, h]

theorem phaseInv_readCrc (h : s.rxState = .readCrc) :
    PhaseInv s ↔ PayloadComplete s ∧ (s.rxCrcPhase = true → s.rxCrcLo.isSome = true) := by
  rw [PhaseInv, h]

/-! ### Updates that keep the invariants -/

theorem Inv.after_emit {o : Output} (h : Inv s) : Inv (emit o s) := { h with }

theorem Inv.after_refuse (h : Inv s) (r : RefuseReason) : Inv (refuse r s) := { h with refusalKept := rfl }

theorem Inv.withOps (h : Inv s) (ops : List Op) : Inv { s with ops := ops } := { h with }

/-- With the framer as its reset leaves it, only what the reset does not write is left to ask for. -/
theorem inv_of_framerReset_eq (h : framerReset s = s) (hp : s.params.wf) (hr : s.reg.wf = true)
    (hk : s.refused = s.lastRefusal.isSome) : Inv s := by
  have hst : StoreInv (framerReset s) := ⟨hp, Memory.wf_nil, hr, fun a => by simp, hk⟩
  have hph : PhaseInv (framerReset s) := ⟨⟨rfl, Nat.zero_lt_succ _⟩, rfl⟩
  rw [← h]
  exact inv_iff.2 ⟨hst, hph⟩

/-- 41_rx_framer.md R121. -/
theorem Inv.after_framerReset (h : Inv s) : Inv (framerReset s) :=
  inv_of_framerReset_eq rfl h.period h.regWf h.refusalKept

theorem Inv.after_raiseError (h : Inv s) (k : LinkError) : Inv (raiseError k s) := h.after_framerReset.after_emit

/-! ### The stored payload byte (41_rx_framer.md R131) -/

/-- A u16 below a bound of the machine is incremented without wrapping. -/
theorem half_succ_toNat {v : Half} {n : Nat} (h : v.toNat < n) (hn : n < 2 ^ 16) : (v + 1).toNat = v.toNat + 1 :=
  BitVec.toNat_add_of_lt (y := 1) (Nat.lt_of_le_of_lt h hn)

theorem rxIdx_succ_toNat (h : s.rxIdx.toNat < s.params.rxCap.val) : (s.rxIdx + 1).toNat = s.rxIdx.toNat + 1 :=
  half_succ_toNat h s.params.rxCap.isLt

/-- The next byte is stored just past the cells that hold values, and the index moves past it. -/
theorem StoreInv.after_payloadStored (h : StoreInv s) (hi : s.rxIdx.toNat < s.params.rxCap.val) :
    StoreInv (payloadStored b s) := by
  refine { h with bufWf := Memory.wf_write h.bufWf _ _, cells := fun a => ?_ }
  show ((s.rxBuf.write s.rxIdx.toNat b).read a).isSome = true ↔ a < (s.rxIdx + 1).toNat
  rw [Memory.read_write, rxIdx_succ_toNat hi]
  split
  · next e => simp [e]
  · next e => rw [h.cells]; omega

/-! ### Each operation keeps the invariants -/

/-- One case per rule R122 to R138. The rules that end a frame leave the reset framer; of the others only R122 and R131
write the store, and each hands its framer state's facts to the next. -/
theorem RxRule.keeps_inv (hr : RxRule b s t) (hi : Inv s) : Inv t := by
  have hst := hi.store
  have hph := hi.phase
  unfold PhaseInv at hph
  cases hr with
  | resync | frameComplete => exact hi.after_framerReset.after_emit
  | badLength | crcMismatch | badStop1 | badStop2 => exact hi.after_raiseError _
  | startMarker h =>
    rw [h] at hph
    obtain ⟨⟨-, hlen⟩, -⟩ := hph
    exact .after_emit (inv_iff.2 ⟨{ hst with bufWf := Memory.wf_nil, cells := fun a => by simp }, rfl, hlen⟩)
  | ignored h => exact .after_emit { hi with idle := fun _ => rfl }
  | secondMarker h => rw [h] at hph; exact .after_emit (inv_iff.2 ⟨{ hst with }, hph⟩)
  | frameId h => rw [h] at hph; exact .after_emit (inv_iff.2 ⟨{ hst with }, hph, rfl⟩)
  | lenLow h =>
    rw [h] at hph
    obtain ⟨⟨hidx, -⟩, hid⟩ := hph
    have hlen : (b.zeroExtend 16).toNat < 256 := by
      rw [BitVec.toNat_setWidth_of_le (by decide)]; exact b.isLt
    exact .after_emit (inv_iff.2 ⟨{ hst with }, ⟨hidx, hlen⟩, hid⟩)
  | emptyPayload h =>
    rw [h] at hph
    obtain ⟨⟨hidx, -⟩, hid⟩ := hph
    exact .after_emit (inv_iff.2 ⟨{ hst with }, ⟨Nat.zero_le _, hidx, hid⟩, nofun⟩)
  | header h hl h0 =>
    rw [h] at hph
    obtain ⟨⟨hidx, -⟩, hid⟩ := hph
    exact .after_emit (inv_iff.2 ⟨{ hst with }, hl, by rwa [hidx], hid⟩)
  | lastPayloadByte h hcap hl =>
    rw [h] at hph
    obtain ⟨hfit, -, hid⟩ := hph
    exact .after_emit (inv_iff.2 ⟨{ hst.after_payloadStored hcap with }, ⟨hfit, hl, hid⟩, nofun⟩)
  | payloadByte h hcap hl =>
    obtain ⟨hfit, hlt, hid⟩ := (phaseInv_readData h).1 hi.phase
    have hnext : (s.rxIdx + 1).toNat < s.rxLen.toNat := by
      have hne : (s.rxIdx + 1).toNat ≠ s.rxLen.toNat := fun e => hl (BitVec.eq_of_toNat_eq e)
      rw [rxIdx_succ_toNat hcap] at hne ⊢
      omega
    exact .after_emit (inv_iff.2
      ⟨{ hst.after_payloadStored hcap with }, Iff.mpr (phaseInv_readData h) ⟨hfit, hnext, hid⟩⟩)
  | crcLow h =>
    obtain ⟨hcomplete, -⟩ := (phaseInv_readCrc h).1 hi.phase
    exact .after_emit (inv_iff.2 ⟨{ hst with }, Iff.mpr (phaseInv_readCrc h) ⟨hcomplete, fun _ => rfl⟩⟩)
  | crcMatch h => rw [h] at hph; exact .after_emit (inv_iff.2 ⟨{ hst with }, hph.1⟩)
  | stopMarker h => rw [h] at hph; exact .after_emit (inv_iff.2 ⟨{ hst with }, hph⟩)

theorem execTick_keeps_inv (hi : Inv s) (h : execTick s = .next t) : Inv t := by
  rcases execTick_cases s with ⟨-, e⟩ | ⟨hs, -, e⟩ | ⟨-, -, e⟩ <;> rw [e] at h <;> cases h
  · exact hi.after_emit
  · exact .after_emit { hi with idle := fun hs' => absurd hs' hs }
  · exact hi.after_raiseError _

theorem afterEncode_keeps_inv (hi : Inv s) (id : Byte) (n : Half) (payload : List Byte) (space : Option Nat) :
    Inv (afterEncode id n payload space s) := by
  rcases afterEncode_cases id n payload space s with ⟨r, -, e⟩ | ⟨-, e⟩ <;> rw [e]
  · exact hi.after_refuse r
  · exact hi.after_emit

theorem exec_keeps_inv {i : Instr} (hi : Inv s) (h : exec i s = .next t) : Inv t := by
  cases i with
  | rxByte b => exact (execRxByte_rule h).keeps_inv hi
  | tick => exact execTick_keeps_inv hi h
  | encode id n payload space => cases h; exact afterEncode_keeps_inv hi id n payload space
  | crcInit | crcFeed | crcUpdate | cfgTimeout => cases h; exact .after_emit { hi with }
  | regSet id tag => cases h; exact .after_emit { hi with regWf := Registry.wf_regWrite hi.regWf id tag }
  | reset =>
    cases h
    exact .after_emit (inv_of_framerReset_eq rfl hi.period Registry.wf_regCleared hi.refusalKept)

/-- Settles O50: an idle step changes nothing, a refused word sets the mark with its reason, and every operation keeps
the invariants. -/
theorem everyStepKeepsTheInvariants : Obligations.EveryStepKeepsTheInvariants := by
  intro s t hi h
  rcases step_cases h with ⟨-, rfl⟩ | ⟨op, rest, r, -, -, rfl⟩ | ⟨op, rest, i, -, -, he⟩
  · exact hi
  · exact (hi.withOps rest).after_refuse r
  · exact exec_keeps_inv (hi.withOps rest) he

/-! ### Power-on and reset (10_state.md R41) -/

theorem inv_powerOn {p : Params} (hp : p.wf) : Inv (State.powerOn p) := inv_of_framerReset_eq rfl hp rfl rfl

/-- Settles O51: at power-on the framer stands as its reset leaves it, and this hardware's tick period is positive. -/
theorem invariantsHoldAtPowerOn : Obligations.InvariantsHoldAtPowerOn :=
  ⟨fun _ => inv_powerOn, inv_powerOn (Nat.succ_pos _)⟩

/-- Settles O48: the values `State.powerOn` gives, and the frame of `RESET`. -/
theorem resetValues : Obligations.ResetValues := by
  have hreset : ∀ s t : State, exec .reset s = .next t → t.refused = s.refused := by
    intro s t h; cases h; rw [emit_refused]; exact framerReset_refused s
  exact ⟨rfl, rfl, rfl, rfl, rfl, rfl, rfl, Memory.read_nil, rfl, rfl,
    fun id => ⟨rfl, regTag_nil id⟩, rfl, rfl, hreset⟩

/-! ### The elapsed count (10_state.md R39.5) -/

/-- Under the invariants `RX_BYTE` reads no absent value and no absent cell. -/
theorem execRxByte_total (hi : Inv s) (b : Byte) : ∃ t, execRxByte b s = .next t := by
  have hph := hi.phase
  unfold PhaseInv at hph
  cases hs : s.rxState <;> rw [hs] at hph
  case awaitStart1 => exact ⟨_, execRxByte_awaitStart1 hs⟩
  case awaitStart2 => exact ⟨_, execRxByte_awaitStart2 hs⟩
  case readId => exact ⟨_, execRxByte_readId hs⟩
  case readLenLow => exact ⟨_, execRxByte_readLenLow hs⟩
  case readLenHigh => exact ⟨_, execRxByte_readLenHigh hs⟩
  case readStop1 => exact ⟨_, execRxByte_readStop1 hs⟩
  case readData =>
    obtain ⟨hfit, hlt, -⟩ := hph
    rw [execRxByte_readData hs]
    rcases rxReadData_cases b { s with tmoElapsed := 0 } with ⟨hge, -⟩ | ⟨-, -, e⟩ | ⟨-, -, e⟩
    · exact absurd (Nat.lt_of_lt_of_le hlt hfit) (Nat.not_lt.2 hge)
    · exact ⟨_, e⟩
    · exact ⟨_, e⟩
  case readCrc =>
    rw [execRxByte_readCrc hs]
    rcases rxReadCrc_cases b { s with tmoElapsed := 0 } with
      ⟨-, e⟩ | ⟨hp, hlo, -⟩ | ⟨lo, -, -, -, e⟩ | ⟨lo, -, -, -, e⟩
    · exact ⟨_, e⟩
    · exact absurd hlo (Option.isSome_iff_ne_none.1 (hph.2 hp))
    · exact ⟨_, e⟩
    · exact ⟨_, e⟩
  case readStop2 =>
    obtain ⟨hfit, hidx, hid⟩ := hph
    obtain ⟨id, hid⟩ := Option.isSome_iff_exists.1 hid
    obtain ⟨payload, hp⟩ : ∃ payload, bufReadFrom s.params s.rxBuf 0 s.rxLen.toNat = .ok payload :=
      bufReadFrom_total fun k hk => by rw [Nat.zero_add, hi.cells, hidx]; omega
    rw [execRxByte_readStop2 hs]
    by_cases hb : b = s.params.stop2
    · exact ⟨_, rxReadStop2_complete hb hid hp⟩
    · exact ⟨_, if_neg hb⟩

/-- Every `RX_BYTE` restarts the count (41_rx_framer.md R120). -/
theorem RxRule.tmoElapsed_eq (hr : RxRule b s t) : t.tmoElapsed = 0 := by
  cases hr <;> rfl

theorem execTick_elapsed_le (hi : Inv s) :
    ∃ t, execTick s = .next t ∧ t.tmoElapsed.toNat ≤ t.timeoutMs.toNat := by
  rcases execTick_cases s with ⟨hs, e⟩ | ⟨-, hle, e⟩ | ⟨-, -, e⟩ <;> refine ⟨_, e, ?_⟩
  · rw [emit_tmoElapsed, hi.idle hs]; exact Nat.zero_le _
  · exact (half_succ_toNat hle s.timeoutMs.isLt).trans_le hle
  · rw [raiseError_tmoElapsed]; exact Nat.zero_le _

/-- Settles O54: a received byte restarts the count, and a tick that would pass the limit resets the framer instead. -/
theorem elapsedStaysWithinTheTimeout : Obligations.ElapsedStaysWithinTheTimeout := by
  refine fun s hi => ⟨fun b => ?_, execTick_elapsed_le hi⟩
  obtain ⟨t, ht⟩ := execRxByte_total hi b
  refine ⟨t, ht, ?_⟩
  rw [(execRxByte_rule ht).tmoElapsed_eq]
  exact Nat.zero_le _

end Sys2Proof.Machine
end

section
/-! The mark `refused` (10_state.md R35, 60_exceptions.md R206). -/

namespace Sys2Proof.Machine

variable {b : Byte} {i : Instr} {s t : State}

theorem RxRule.refused_eq (hr : RxRule b s t) : t.refused = s.refused := by
  cases hr <;> rfl

theorem execTick_refused (h : execTick s = .next t) : t.refused = s.refused := by
  rcases execTick_cases s with ⟨-, e⟩ | ⟨-, -, e⟩ | ⟨-, -, e⟩ <;> rw [e] at h <;> cases h
  · rw [emit_refused]
  · rw [emit_refused]
  · rw [raiseError_refused]

theorem wellFormed_eq_false_iff {p : Params} : i.wellFormed p = false ↔
    ∃ id n payload space, i = .encode id n payload space ∧
      (payload.length ≠ n.toNat ∨ space.isSome ≠ p.txSpaceCheck) := by
  cases i <;> simp [Instr.wellFormed, payloadFits, spacePresented, Decidable.imp_iff_not_or]

theorem afterEncode_refused (id : Byte) (n : Half) (payload : List Byte) (space : Option Nat) (s : State) :
    (afterEncode id n payload space s).refused =
      (s.refused || !(Instr.encode id n payload space).wellFormed s.params) := by
  rcases afterEncode_cases id n payload space s with ⟨r, hr, e⟩ | ⟨hr, e⟩
  · have hw : (Instr.encode id n payload space).wellFormed s.params = false :=
      Bool.eq_false_iff.2 fun hw => by rw [encodeRefusal_eq_none.2 hw] at hr; cases hr
    rw [e, hw, refuse_refused, Bool.not_false, Bool.or_true]
  · rw [e, encodeRefusal_eq_none.1 hr, emit_refused, Bool.not_true, Bool.or_false]

/-- An operation sets the mark exactly when its operands are ill formed, and none clears it. -/
theorem exec_refused (h : exec i s = .next t) : t.refused = (s.refused || !i.wellFormed s.params) := by
  cases i with
  | encode id n payload space => cases h; exact afterEncode_refused id n payload space s
  | rxByte b => simpa [Instr.wellFormed] using (execRxByte_rule h).refused_eq
  | tick => simpa [Instr.wellFormed] using execTick_refused h
  | crcInit | crcFeed | crcUpdate | regSet | cfgTimeout | reset => cases h; simp [Instr.wellFormed]

/-- Settles O11, by the three things a step can do. -/
theorem refusedMarkIsSticky : Obligations.RefusedMarkIsSticky := by
  refine ⟨fun s t h hs => ?sticky, fun s t h hs => ?set, fun p => rfl⟩
  case sticky =>
    rcases step_cases h with ⟨-, rfl⟩ | ⟨op, rest, r, -, -, rfl⟩ | ⟨op, rest, i, -, -, he⟩
    · exact hs
    · exact refuse_refused ..
    · rw [exec_refused he, hs, Bool.true_or]
  case set =>
    rcases step_cases h with ⟨ho, rfl⟩ | ⟨op, rest, r, ho, hd, rfl⟩ | ⟨op, rest, i, ho, hd, he⟩
    · simp [ho, hs]
    · simp [ho, hd]
    · rw [exec_refused he, hs, Bool.false_or, Bool.not_eq_true', wellFormed_eq_false_iff]
      simp [ho, hd]

end Sys2Proof.Machine
end

section
/-! The faults of a state that breaks the invariants (10_state.md R29, 20_memory.md R50). -/

namespace Sys2Proof.Machine

variable {b : Byte} {s : State}

theorem bufRead_absent {p : Params} {m : Memory} {i : Nat} (h : i < p.rxCap.val) (hm : m.read i = none) :
    bufRead p m i = .error .readOfNoValue := by
  simp [bufRead, h, hm]

/-- A range that is not empty stops where its first cell stops. -/
theorem bufReadFrom_of_bufRead_error {p : Params} {m : Memory} {i n : Nat} {f : Fault} (hn : 0 < n)
    (h : bufRead p m i = .error f) : bufReadFrom p m i n = .error f := by
  cases n with
  | zero => cases hn
  | succ n => simp only [bufReadFrom, h]

theorem rxFrameComplete_of_rxId_none (h : s.rxId = none) : rxFrameComplete s = .fault .readOfNoValue := by
  simp only [rxFrameComplete, h]

theorem rxFrameComplete_of_cell_absent (hl : 0 < s.rxLen.toNat) (hc : 0 < s.params.rxCap.val)
    (h : s.rxBuf.read 0 = none) : rxFrameComplete s = .fault .readOfNoValue := by
  cases hid : s.rxId with
  | none => exact rxFrameComplete_of_rxId_none hid
  | some id => simp only [rxFrameComplete, hid, bufReadFrom_of_bufRead_error hl (bufRead_absent hc h)]

theorem execRxByte_stop2 (h : s.rxState = .readStop2) (hb : b = s.params.stop2) :
    execRxByte b s = rxFrameComplete { s with tmoElapsed := 0 } := by
  rw [execRxByte_readStop2 h]
  exact if_pos hb

/-- Settles O55: in each of the four the rule of the framer state reads or writes what is absent. -/
theorem brokenInvariantsFault : Obligations.BrokenInvariantsFault := by
  refine fun b s => ⟨fun h hp hlo => ?_, fun h hb hid => ?_, fun h hb hl hc hm => ?_, fun h hi => ?_⟩
  · refine (execRxByte_readCrc h).trans ?_
    simp only [rxReadCrc, hp, hlo, Bool.true_eq_false, if_false]
  · exact (execRxByte_stop2 h hb).trans (rxFrameComplete_of_rxId_none hid)
  · exact (execRxByte_stop2 h hb).trans (rxFrameComplete_of_cell_absent hl hc hm)
  · refine (execRxByte_readData h).trans ?_
    rcases rxReadData_cases b { s with tmoElapsed := 0 } with ⟨-, e⟩ | ⟨hlt, -⟩ | ⟨hlt, -⟩
    · exact e
    · exact absurd hi (Nat.not_le.2 hlt)
    · exact absurd hi (Nat.not_le.2 hlt)

end Sys2Proof.Machine
end

section
/-! The words of the encoder (30_encoding.md R77): each field is read back as it was written. -/

namespace Sys2Proof

open Laws.ReservedBits (layout)

/-- A field of an operation's word, computed on the word's number. -/
theorem field_encode {i : Instr} {lo n : Nat} {v : BitVec n} (h : wordNumber i / 2 ^ lo % 2 ^ n = v.toNat) :
    (encode i).word.extractLsb' lo n = v := by
  rw [← BitVec.toNat_inj, toNat_field, encode_word, encodeWord_toNat, h]

theorem opcode_encode (i : Instr) : (opcode (encode i).word).toNat = (layout i).1 := by
  rw [opcode_toNat, encode_word, encodeWord_toNat]
  cases i <;> simp only [wordNumber, layout] <;> omega

/-- R79: the bits between an operation's fields and its opcode. -/
theorem reserved_encode (i : Instr) : (encode i).word.extractLsb' (layout i).2 (28 - (layout i).2) = 0 := by
  apply field_encode
  rw [BitVec.ofNat_eq_ofNat, BitVec.toNat_ofNat]
  cases i <;> simp only [wordNumber, layout] <;> omega

/-- By opcode: the reserved bits of the operation's word are 0, and its fields are the operands. -/
theorem decode_encode (i : Instr) : decode (encode i) = .ok i := by
  have hop := opcode_encode i
  have hres := reserved_encode i
  cases i with
  | rxByte b =>
    have hb : (encode (.rxByte b)).word.extractLsb' 0 8 = b := field_encode (by simp only [wordNumber]; omega)
    rw [decode_opcode_1 hop, hb]
    exact ifReservedZero_of_zero hres _
  | crcFeed b =>
    have hb : (encode (.crcFeed b)).word.extractLsb' 0 8 = b := field_encode (by simp only [wordNumber]; omega)
    rw [decode_opcode_4 hop, hb]
    exact ifReservedZero_of_zero hres _
  | crcUpdate c b =>
    have hc : (encode (.crcUpdate c b)).word.extractLsb' 8 16 = c := field_encode (by simp only [wordNumber]; omega)
    have hb : (encode (.crcUpdate c b)).word.extractLsb' 0 8 = b := field_encode (by simp only [wordNumber]; omega)
    rw [decode_opcode_5 hop, hc, hb]
    exact ifReservedZero_of_zero hres _
  | encode id n payload space =>
    have hid : (encode (.encode id n payload space)).word.extractLsb' 16 8 = id :=
      field_encode (by simp only [wordNumber]; omega)
    have hn : (encode (.encode id n payload space)).word.extractLsb' 0 16 = n :=
      field_encode (by simp only [wordNumber]; omega)
    rw [decode_opcode_6 hop, hid, hn]
    exact ifReservedZero_of_zero hres _
  | regSet id tag =>
    have hid : (encode (.regSet id tag)).word.extractLsb' 16 8 = id := field_encode (by simp only [wordNumber]; omega)
    have htag : (encode (.regSet id tag)).word.extractLsb' 0 16 = tag := field_encode (by simp only [wordNumber]; omega)
    rw [decode_opcode_7 hop, hid, htag]
    exact ifReservedZero_of_zero hres _
  | cfgTimeout t =>
    have ht : (encode (.cfgTimeout t)).word.extractLsb' 0 16 = t := field_encode (by simp only [wordNumber]; omega)
    rw [decode_opcode_8 hop, ht]
    exact ifReservedZero_of_zero hres _
  | tick => exact (decode_opcode_2 hop).trans (ifReservedZero_of_zero hres _)
  | crcInit => exact (decode_opcode_3 hop).trans (ifReservedZero_of_zero hres _)
  | reset => exact (decode_opcode_15 hop).trans (ifReservedZero_of_zero hres _)

end Sys2Proof
end

section
/-! Presented operations run in their order (20_memory.md R62): no operation's effect depends on those presented after
it. -/

namespace Sys2Proof.Machine

/-- A result with `ops` presented in its next state. -/
def resultWithOps (ops : List Op) : Result → Result
  | .next t => .next { t with ops := ops }
  | .fault f => .fault f
  | .refused r => .refused r

variable (ops : List Op) (b : Byte) (s : State)

/-! ### The rules of the framer -/

theorem rxAwaitStart1_withOps : rxAwaitStart1 b { s with ops := ops } = { rxAwaitStart1 b s with ops := ops } := by
  unfold rxAwaitStart1
  dsimp only
  split <;> rfl

theorem rxAwaitStart2_withOps : rxAwaitStart2 b { s with ops := ops } = { rxAwaitStart2 b s with ops := ops } := by
  unfold rxAwaitStart2
  dsimp only
  split <;> rfl

theorem rxReadLenHigh_withOps : rxReadLenHigh b { s with ops := ops } = { rxReadLenHigh b s with ops := ops } := by
  unfold rxReadLenHigh
  dsimp only
  split
  · rfl
  · split <;> rfl

theorem rxReadData_withOps : rxReadData b { s with ops := ops } = resultWithOps ops (rxReadData b s) := by
  unfold rxReadData
  dsimp only
  cases bufWrite s.params s.rxBuf s.rxIdx.toNat b with
  | error f => rfl
  | ok m => dsimp only; split <;> rfl

theorem rxReadCrc_withOps : rxReadCrc b { s with ops := ops } = resultWithOps ops (rxReadCrc b s) := by
  unfold rxReadCrc
  dsimp only
  split
  · rfl
  · cases s.rxCrcLo with
    | none => rfl
    | some lo => dsimp only; split <;> rfl

theorem rxReadStop1_withOps : rxReadStop1 b { s with ops := ops } = { rxReadStop1 b s with ops := ops } := by
  unfold rxReadStop1
  dsimp only
  split <;> rfl

theorem rxReadStop2_withOps : rxReadStop2 b { s with ops := ops } = resultWithOps ops (rxReadStop2 b s) := by
  unfold rxReadStop2 rxFrameComplete
  dsimp only
  split
  · cases s.rxId with
    | none => rfl
    | some id => dsimp only; cases bufReadFrom s.params s.rxBuf 0 s.rxLen.toNat <;> rfl
  · rfl

/-! ### Every operation -/

theorem execRxByte_withOps : execRxByte b { s with ops := ops } = resultWithOps ops (execRxByte b s) := by
  obtain ⟨st, hs⟩ : ∃ st, s.rxState = st := ⟨_, rfl⟩
  cases st with
  | awaitStart1 =>
    rw [execRxByte_awaitStart1 hs, execRxByte_awaitStart1 (s := { s with ops := ops }) hs]
    exact congrArg Host.Outcome.next (rxAwaitStart1_withOps ops b { s with tmoElapsed := 0 })
  | awaitStart2 =>
    rw [execRxByte_awaitStart2 hs, execRxByte_awaitStart2 (s := { s with ops := ops }) hs]
    exact congrArg Host.Outcome.next (rxAwaitStart2_withOps ops b { s with tmoElapsed := 0 })
  | readId =>
    rw [execRxByte_readId hs, execRxByte_readId (s := { s with ops := ops }) hs]
    rfl
  | readLenLow =>
    rw [execRxByte_readLenLow hs, execRxByte_readLenLow (s := { s with ops := ops }) hs]
    rfl
  | readLenHigh =>
    rw [execRxByte_readLenHigh hs, execRxByte_readLenHigh (s := { s with ops := ops }) hs]
    exact congrArg Host.Outcome.next (rxReadLenHigh_withOps ops b { s with tmoElapsed := 0 })
  | readData =>
    rw [execRxByte_readData hs, execRxByte_readData (s := { s with ops := ops }) hs]
    exact rxReadData_withOps ops b { s with tmoElapsed := 0 }
  | readCrc =>
    rw [execRxByte_readCrc hs, execRxByte_readCrc (s := { s with ops := ops }) hs]
    exact rxReadCrc_withOps ops b { s with tmoElapsed := 0 }
  | readStop1 =>
    rw [execRxByte_readStop1 hs, execRxByte_readStop1 (s := { s with ops := ops }) hs]
    exact congrArg Host.Outcome.next (rxReadStop1_withOps ops b { s with tmoElapsed := 0 })
  | readStop2 =>
    rw [execRxByte_readStop2 hs, execRxByte_readStop2 (s := { s with ops := ops }) hs]
    exact rxReadStop2_withOps ops b { s with tmoElapsed := 0 }

theorem tickInFrame_withOps : tickInFrame { s with ops := ops } = { tickInFrame s with ops := ops } := by
  unfold tickInFrame elapsedNext
  dsimp only
  split <;> rfl

theorem execTick_withOps : execTick { s with ops := ops } = resultWithOps ops (execTick s) := by
  unfold execTick
  dsimp only
  split
  · rfl
  · exact congrArg _ (tickInFrame_withOps ops s)

theorem afterEncode_withOps (id : Byte) (n : Half) (payload : List Byte) (space : Option Nat) :
    afterEncode id n payload space { s with ops := ops } = { afterEncode id n payload space s with ops := ops } := by
  unfold afterEncode
  dsimp only
  cases encodeRefusal s.params n payload space <;> rfl

/-- No operation reads or writes what is presented after it. -/
theorem exec_withOps (i : Instr) : exec i { s with ops := ops } = resultWithOps ops (exec i s) := by
  cases i with
  | rxByte b => exact execRxByte_withOps ops b s
  | tick => exact execTick_withOps ops s
  | encode id n payload space => exact congrArg _ (afterEncode_withOps ops s id n payload space)
  | crcInit | crcFeed | crcUpdate | regSet | cfgTimeout | reset => rfl

/-- Settles O9, by induction on the operations: a presented operation decodes to itself, and runs the same whatever
stands behind it. -/
theorem presentedOperationsRunInOrder : Obligations.PresentedOperationsRunInOrder := by
  intro is rest
  induction is with
  | nil => rintro s rfl; rfl
  | cons i is ih =>
    intro s hs
    have hstep : step s = resultWithOps (is.map encode ++ rest) (exec i s) :=
      (step_of_decode_ok hs (decode_encode i)).trans (exec_withOps _ s i)
    simp only [List.length_cons, runSteps, runInstrs, hstep, exec_withOps]
    cases exec i s with
    | next t => exact ih { t with ops := is.map encode ++ rest } rfl
    | fault f => rfl
    | refused r => rfl

end Sys2Proof.Machine
end

section
/-! The buffer cells `RX_BYTE` changes (20_memory.md R50, 41_rx_framer.md R121, R122, R131). -/

namespace Sys2Proof.Machine

variable {b : Byte} {s t : State}

theorem RxRule.rxBuf_of_readData (hr : RxRule b s t) (hs : s.rxState = .readData) :
    t.rxBuf = s.rxBuf.write s.rxIdx.toNat b := by
  cases hr with
  | lastPayloadByte | payloadByte => rfl
  | _ h => exact nomatch hs.symm.trans h

theorem RxRule.rxBuf_of_start1 (hr : RxRule b s t) (hs : s.rxState = .awaitStart1) (hb : b = s.params.start1) :
    t.rxBuf = [] := by
  cases hr with
  | startMarker => rfl
  | ignored _ hn => exact absurd hb hn
  | _ h => exact nomatch hs.symm.trans h

/-- The framer returns to `AwaitStart1` by its reset alone: every other rule names another state or keeps the old
one. -/
theorem RxRule.rxBuf_of_return (hr : RxRule b s t) (hs : s.rxState ≠ .awaitStart1) (ht : t.rxState = .awaitStart1) :
    t.rxBuf = [] := by
  cases hr with
  | resync | frameComplete => exact framerReset_rxBuf s
  | badLength | crcMismatch | badStop1 | badStop2 => exact raiseError_rxBuf _ s
  | ignored | payloadByte | crcLow => exact absurd ht hs
  | _ => cases ht

theorem RxRule.rxBuf_of_other (hr : RxRule b s t) (hd : s.rxState ≠ .readData)
    (hm : ¬(s.rxState = .awaitStart1 ∧ b = s.params.start1))
    (ht : ¬(s.rxState ≠ .awaitStart1 ∧ t.rxState = .awaitStart1)) : t.rxBuf = s.rxBuf := by
  cases hr with
  | startMarker h hb => exact absurd ⟨h, hb⟩ hm
  | lastPayloadByte h | payloadByte h => exact absurd h hd
  | resync h | badLength h | crcMismatch h | badStop1 h | badStop2 h | frameComplete h =>
    exact absurd ⟨fun e => (nomatch e.symm.trans h), rfl⟩ ht
  | _ => rfl

/-- Settles O31, by the rules R122 to R138. -/
theorem rxByteBufferFrame : Obligations.RxByteBufferFrame := by
  intro b s t h
  have hr : RxRule b s t := execRxByte_rule h
  refine ⟨fun hs a => ?_, fun hs hb a => ?_, fun hs ht a => ?_, fun hd hm ht a => ?_⟩
  · rw [hr.rxBuf_of_readData hs, Memory.read_write]
  · rw [hr.rxBuf_of_start1 hs hb, Memory.read_nil]
  · rw [hr.rxBuf_of_return hs ht, Memory.read_nil]
  · rw [hr.rxBuf_of_other hd hm ht]

end Sys2Proof.Machine
end

section
/-! The state region of each operation (20_memory.md R51, R65, 10_state.md R31, R33, R34), and that each operation has a
next state (20_memory.md R61). -/

namespace Sys2Proof.Machine

open Stated (sameFramer)

variable {b : Byte} {i : Instr} {s t : State}

/-! ### What each operation leaves unchanged -/

/-- What lies outside the framer, the configuration and the accumulator, is the same. -/
structure SameOutsideFramer (s t : State) : Prop where
  timeoutMs : t.timeoutMs = s.timeoutMs
  reg : t.reg = s.reg
  crcAcc : t.crcAcc = s.crcAcc

theorem RxRule.sameOutsideFramer (hr : RxRule b s t) : SameOutsideFramer s t := by
  cases hr <;> exact ⟨rfl, rfl, rfl⟩

theorem execTick_sameOutsideFramer (h : execTick s = .next t) : SameOutsideFramer s t := by
  rcases execTick_cases s with ⟨-, e⟩ | ⟨-, -, e⟩ | ⟨-, -, e⟩ <;> rw [e] at h <;> cases h <;>
    exact ⟨rfl, rfl, rfl⟩

theorem afterEncode_frame (id : Byte) (n : Half) (payload : List Byte) (space : Option Nat) (s : State) :
    sameFramer s (afterEncode id n payload space s) ∧ SameOutsideFramer s (afterEncode id n payload space s) := by
  rcases afterEncode_cases id n payload space s with ⟨r, -, e⟩ | ⟨-, e⟩ <;> rw [e] <;>
    exact ⟨⟨rfl, rfl, rfl, rfl, rfl, rfl, rfl, rfl, rfl⟩, rfl, rfl, rfl⟩

theorem exec_sameFramer (h : exec i s = .next t) (hrx : ∀ b, i ≠ .rxByte b) (htick : i ≠ .tick)
    (hreset : i ≠ .reset) : sameFramer s t := by
  cases i with
  | rxByte b => exact absurd rfl (hrx b)
  | tick => exact absurd rfl htick
  | reset => exact absurd rfl hreset
  | encode id n payload space => cases h; exact (afterEncode_frame id n payload space s).1
  | crcInit | crcFeed | crcUpdate | regSet | cfgTimeout =>
    cases h
    exact ⟨rfl, rfl, rfl, rfl, rfl, rfl, rfl, rfl, rfl⟩

theorem exec_timeoutMs (h : exec i s = .next t) (hcfg : ∀ v, i ≠ .cfgTimeout v) (hreset : i ≠ .reset) :
    t.timeoutMs = s.timeoutMs := by
  cases i with
  | rxByte b => exact (execRxByte_rule h).sameOutsideFramer.timeoutMs
  | tick => exact (execTick_sameOutsideFramer h).timeoutMs
  | encode id n payload space => cases h; exact (afterEncode_frame id n payload space s).2.timeoutMs
  | cfgTimeout v => exact absurd rfl (hcfg v)
  | reset => exact absurd rfl hreset
  | crcInit | crcFeed | crcUpdate | regSet => cases h; rfl

theorem exec_reg (h : exec i s = .next t) (hset : ∀ id tag, i ≠ .regSet id tag) (hreset : i ≠ .reset) :
    t.reg = s.reg := by
  cases i with
  | rxByte b => exact (execRxByte_rule h).sameOutsideFramer.reg
  | tick => exact (execTick_sameOutsideFramer h).reg
  | encode id n payload space => cases h; exact (afterEncode_frame id n payload space s).2.reg
  | regSet id tag => exact absurd rfl (hset id tag)
  | reset => exact absurd rfl hreset
  | crcInit | crcFeed | crcUpdate | cfgTimeout => cases h; rfl

theorem exec_crcAcc (h : exec i s = .next t) (hinit : i ≠ .crcInit) (hfeed : ∀ b, i ≠ .crcFeed b)
    (hreset : i ≠ .reset) : t.crcAcc = s.crcAcc := by
  cases i with
  | rxByte b => exact (execRxByte_rule h).sameOutsideFramer.crcAcc
  | tick => exact (execTick_sameOutsideFramer h).crcAcc
  | encode id n payload space => cases h; exact (afterEncode_frame id n payload space s).2.crcAcc
  | crcInit => exact absurd rfl hinit
  | crcFeed b => exact absurd rfl (hfeed b)
  | reset => exact absurd rfl hreset
  | crcUpdate | regSet | cfgTimeout => cases h; rfl

/-- The state's own `ops` presented again is the same run, so the next state presents them too. -/
theorem exec_ops (h : exec i s = .next t) : t.ops = s.ops := by
  have e : exec i s = resultWithOps s.ops (exec i s) := exec_withOps s.ops s i
  rw [h] at e
  injection e with e
  rw [e]

/-- Settles O49, region by region. -/
theorem operationsKeepToTheirRegion : Obligations.OperationsKeepToTheirRegion :=
  fun _ _ _ h => ⟨exec_sameFramer h, exec_timeoutMs h, exec_reg h, exec_crcAcc h, exec_params h, exec_ops h⟩

theorem execEncode_of_wellFormed {id : Byte} {n : Half} {payload : List Byte} {space : Option Nat}
    (hw : (Instr.encode id n payload space).wellFormed s.params = true) :
    execEncode id n payload space s = .next (emit (encodeOutput s.params id n payload space) s) := by
  simp only [execEncode, afterEncode, encodeRefusal_eq_none.2 hw]

/-- Settles O43: the output is `encodeOutput` of the parameters. -/
theorem encodeIsIndependentOfTheState : Obligations.EncodeIsIndependentOfTheState := by
  intro id n payload space s u hp hw
  refine ⟨encodeOutput s.params id n payload space, execEncode_of_wellFormed hw, ?_⟩
  rw [hp] at hw ⊢
  exact execEncode_of_wellFormed hw

/-! ### Each operation has a next state -/

theorem exec_total (hi : Inv s) (i : Instr) : ∃ t, exec i s = .next t := by
  cases i with
  | rxByte b => exact execRxByte_total hi b
  | tick =>
    obtain ⟨t, ht, -⟩ := execTick_elapsed_le hi
    exact ⟨t, ht⟩
  | crcInit | crcFeed | crcUpdate | encode | regSet | cfgTimeout | reset => exact ⟨_, rfl⟩

/-- A reserved word is a next state with the mark set (60_exceptions.md R206, log entry 6). -/
theorem step_of_decode_error {op : Op} {rest : List Op} {r : RefuseReason} (h : s.ops = op :: rest)
    (hd : decode op = .error r) : step s = .next (refuse r { s with ops := rest }) := by
  simp only [step, h, hd]

theorem step_total (hi : Inv s) : ∃ t, step s = .next t := by
  cases ho : s.ops with
  | nil => exact ⟨s, step_of_ops_nil ho⟩
  | cons op rest =>
    cases hd : decode op with
    | error r => exact ⟨_, step_of_decode_error ho hd⟩
    | ok i => rw [step_of_decode_ok ho hd]; exact exec_total (hi.withOps rest) i

/-- Settles O52: only `RX_BYTE` reads what may be absent, and under the invariants it is there. -/
theorem noFaultUnderTheInvariants : Obligations.NoFaultUnderTheInvariants :=
  fun _ hi => ⟨exec_total hi, step_total hi⟩

end Sys2Proof.Machine
end

section
/-! The decoder as a table (30_encoding.md R77, R79): each defined opcode has one row, and its reserved bits are those
between its fields and its opcode. -/

namespace Sys2Proof

open Stated
open Laws.ReservedBits (layout)

variable {op : Op} {i : Instr}

/-- The row of R77 a word falls under: the operation of its opcode, with the fields taken from the word's number. -/
inductive TableRow (op : Op) : Instr → Prop where
  | rxByte (h : opNibble op = 0x1) : TableRow op (.rxByte (BitVec.ofNat 8 op.word.toNat))
  | tick (h : opNibble op = 0x2) : TableRow op .tick
  | crcInit (h : opNibble op = 0x3) : TableRow op .crcInit
  | crcFeed (h : opNibble op = 0x4) : TableRow op (.crcFeed (BitVec.ofNat 8 op.word.toNat))
  | crcUpdate (h : opNibble op = 0x5) : TableRow op
      (.crcUpdate (BitVec.ofNat 16 (op.word.toNat / 2 ^ 8)) (BitVec.ofNat 8 op.word.toNat))
  | encode (h : opNibble op = 0x6) : TableRow op
      (.encode (BitVec.ofNat 8 (op.word.toNat / 2 ^ 16)) (BitVec.ofNat 16 op.word.toNat) op.payload op.space)
  | regSet (h : opNibble op = 0x7) : TableRow op
      (.regSet (BitVec.ofNat 8 (op.word.toNat / 2 ^ 16)) (BitVec.ofNat 16 op.word.toNat))
  | cfgTimeout (h : opNibble op = 0x8) : TableRow op (.cfgTimeout (BitVec.ofNat 16 op.word.toNat))
  | reset (h : opNibble op = 0xF) : TableRow op .reset

theorem opcode_eq_opNibble (op : Op) : (opcode op.word).toNat = opNibble op := opcode_toNat op.word

theorem tableRow_or_reserved (op : Op) :
    (∃ i, TableRow op i) ∨ opNibble op ∈ ([0x0, 0x9, 0xA, 0xB, 0xC, 0xD, 0xE] : List Nat) := by
  rcases opcode_cases op.word with h | h <;> rw [opcode_eq_opNibble] at h
  · simp only [List.mem_cons, List.not_mem_nil, or_false] at h
    rcases h with h | h | h | h | h | h | h | h | h
    · exact .inl ⟨_, .rxByte h⟩
    · exact .inl ⟨_, .tick h⟩
    · exact .inl ⟨_, .crcInit h⟩
    · exact .inl ⟨_, .crcFeed h⟩
    · exact .inl ⟨_, .crcUpdate h⟩
    · exact .inl ⟨_, .encode h⟩
    · exact .inl ⟨_, .regSet h⟩
    · exact .inl ⟨_, .cfgTimeout h⟩
    · exact .inl ⟨_, .reset h⟩
  · exact .inr h

theorem TableRow.opNibble_eq (hr : TableRow op i) : opNibble op = (layout i).1 := by
  cases hr <;> assumption

/-- A word of a row decodes to the row's operation, if the bits between its fields and its opcode are 0. -/
theorem TableRow.decode_eq (hr : TableRow op i) :
    decode op = ifReservedZero (op.word.extractLsb' (layout i).2 (28 - (layout i).2)) i := by
  have hop := (opcode_eq_opNibble op).trans hr.opNibble_eq
  have field_zero (n : Nat) : op.word.extractLsb' 0 n = BitVec.ofNat n op.word.toNat := by
    rw [field_eq_ofNat, pow_zero, Nat.div_one]
  cases hr with
  | rxByte => rw [decode_opcode_1 hop, field_zero 8]; rfl
  | tick => exact decode_opcode_2 hop
  | crcInit => exact decode_opcode_3 hop
  | crcFeed => rw [decode_opcode_4 hop, field_zero 8]; rfl
  | crcUpdate => rw [decode_opcode_5 hop, field_zero 8, field_eq_ofNat _ 8 16]; rfl
  | encode => rw [decode_opcode_6 hop, field_zero 16, field_eq_ofNat _ 16 8]; rfl
  | regSet => rw [decode_opcode_7 hop, field_zero 16, field_eq_ofNat _ 16 8]; rfl
  | cfgTimeout => rw [decode_opcode_8 hop, field_zero 16]; rfl
  | reset => exact decode_opcode_15 hop

/-- R77's masks cover the bits from the lowest one above the fields to bit 27. -/
theorem reservedMask_layout (i : Instr) : reservedMask (layout i).1 =
    some ((BitVec.allOnes (28 - (layout i).2)).setWidth 32 <<< (layout i).2) := by
  cases i <;> simp [layout, reservedMask]

theorem layout_snd_le (i : Instr) : (layout i).2 ≤ 24 := by
  cases i <;> simp only [layout] <;> decide

theorem TableRow.reserved_eq_zero_iff {m : OpWord} (hr : TableRow op i) (hm : reservedMask (opNibble op) = some m) :
    op.word.extractLsb' (layout i).2 (28 - (layout i).2) = 0 ↔ op.word &&& m = 0 := by
  rw [hr.opNibble_eq, reservedMask_layout, Option.some.injEq] at hm
  have := layout_snd_le i
  rw [← hm]
  exact field_eq_zero_iff_mask op.word _ _ (by omega)

theorem TableRow.decode_eq_ok (hr : TableRow op i) (hd : definedWord op) : decode op = .ok i := by
  obtain ⟨m, hm, hz⟩ := hd
  rw [hr.decode_eq]
  exact ifReservedZero_of_zero ((hr.reserved_eq_zero_iff hm).2 hz) i

theorem TableRow.decode_eq_reservedBits_iff (hr : TableRow op i) : decode op = .error .reservedBits ↔
    ∃ m, reservedMask (opNibble op) = some m ∧ op.word &&& m ≠ 0 := by
  have hm := (congrArg reservedMask hr.opNibble_eq).trans (reservedMask_layout i)
  rw [hr.decode_eq, ifReservedZero_eq_error, Ne, hr.reserved_eq_zero_iff hm, hm]
  simp

/-- The operation's word is rebuilt from its fields: with the bits between them 0, nothing of the word is lost. -/
theorem TableRow.encodeWord_eq (hr : TableRow op i)
    (hz : op.word.extractLsb' (layout i).2 (28 - (layout i).2) = 0) : encodeWord i = op.word := by
  have hop := hr.opNibble_eq
  rw [field_eq_zero_iff] at hz
  rw [← BitVec.toNat_inj, encodeWord_toNat]
  cases hr <;> simp only [opNibble, layout, wordNumber, BitVec.toNat_ofNat] at hop hz ⊢ <;> omega

/-! ### The statements -/

/-- Settles O4. -/
theorem decodeOfEncode : Obligations.DecodeOfEncode := decode_encode

/-- Settles O2, row by row. -/
theorem decodingExtractsTheFields : Obligations.DecodingExtractsTheFields := fun _ hd =>
  ⟨fun h => (TableRow.rxByte h).decode_eq_ok hd, fun h => (TableRow.tick h).decode_eq_ok hd,
    fun h => (TableRow.crcInit h).decode_eq_ok hd, fun h => (TableRow.crcFeed h).decode_eq_ok hd,
    fun h => (TableRow.crcUpdate h).decode_eq_ok hd, fun h => (TableRow.encode h).decode_eq_ok hd,
    fun h => (TableRow.regSet h).decode_eq_ok hd, fun h => (TableRow.cfgTimeout h).decode_eq_ok hd,
    fun h => (TableRow.reset h).decode_eq_ok hd⟩

theorem TableRow.not_reserved (hr : TableRow op i) :
    opNibble op ∉ ([0x0, 0x9, 0xA, 0xB, 0xC, 0xD, 0xE] : List Nat) := by
  rw [hr.opNibble_eq]
  cases i <;> simp only [layout] <;> decide

theorem reservedMask_of_reserved {n : Nat} (h : n ∈ ([0x0, 0x9, 0xA, 0xB, 0xC, 0xD, 0xE] : List Nat)) :
    reservedMask n = none := by
  simp only [List.mem_cons, List.not_mem_nil, or_false] at h
  rcases h with rfl | rfl | rfl | rfl | rfl | rfl | rfl <;> rfl

/-- Settles O3: a word falls under a row, which refuses it for its reserved bits alone, or has a reserved opcode. -/
theorem reservedWordsAreRefused : Obligations.ReservedWordsAreRefused := by
  intro op
  rcases tableRow_or_reserved op with ⟨i, hr⟩ | h
  · refine ⟨iff_of_false (fun e => ?_) hr.not_reserved, hr.decode_eq_reservedBits_iff, fun r e => .inr ?_⟩ <;>
      rw [hr.decode_eq, ifReservedZero_eq_error] at e
    · cases e.2
    · exact e.2
  · have hd : decode op = .error .reservedOpcode :=
      decode_opcode_reserved (by rwa [opcode_eq_opNibble])
    simp [hd, h, reservedMask_of_reserved h]

/-- Settles O5: a decoded word falls under a row with its reserved bits 0. -/
theorem encodeOfDecode : Obligations.EncodeOfDecode := by
  intro op i h
  rcases tableRow_or_reserved op with ⟨j, hr⟩ | hres
  · rw [hr.decode_eq, ifReservedZero_eq_ok] at h
    obtain ⟨hz, rfl⟩ := h
    exact hr.encodeWord_eq hz
  · rw [decode_opcode_reserved (by rwa [opcode_eq_opNibble])] at h
    cases h

/-- Settles O1, by running the decoder on the eleven words. -/
theorem sampleWordsDecode : Obligations.SampleWordsDecode := by
  unfold Obligations.SampleWordsDecode
  decide

end Sys2Proof
end

section
/-! The output of an operation (30_encoding.md R80 to R82): one of its own kind, and none where it is refused. -/

namespace Sys2Proof.Machine

open Stated (emitted)

variable {b : Byte} {i : Instr} {s t : State} {o : Output}

/-! ### The outputs of `RX_BYTE` -/

/-- The outputs `RX_BYTE b` can emit from `s`, each with the framer state whose rule emits it (R81). -/
inductive RxOutput (b : Byte) (s : State) : Output → Prop where
  | awaitingMore : RxOutput b s rxAwaiting
  | badLength (h : s.rxState = .readLenHigh) : RxOutput b s (.rxOut .badLength none none)
  | crcMismatch (h : s.rxState = .readCrc) (hp : s.rxCrcPhase = true) : RxOutput b s (.rxOut .crcMismatch none none)
  | badStopByte (h : s.rxState = .readStop1 ∨ s.rxState = .readStop2) : RxOutput b s (.rxOut .badStopByte none none)
  | frameComplete (h : s.rxState = .readStop2) (hb : b = s.params.stop2) (id : Byte) (hid : s.rxId = some id)
      (payload : List Byte) (hp : bufReadFrom s.params s.rxBuf 0 s.rxLen.toNat = .ok payload) :
      RxOutput b s (.rxOut .frameComplete (some ⟨id, payload⟩) (dispatchOf s id payload))

theorem RxRule.output (hr : RxRule b s t) : ∃ o, RxOutput b s o ∧ emitted s t o := by
  cases hr with
  | badLength h => exact ⟨_, .badLength h, rfl⟩
  | crcMismatch h hp => exact ⟨_, .crcMismatch h hp, rfl⟩
  | badStop1 h => exact ⟨_, .badStopByte (.inl h), rfl⟩
  | badStop2 h => exact ⟨_, .badStopByte (.inr h), rfl⟩
  | frameComplete h hb id hid payload hp => exact ⟨_, .frameComplete h hb id hid payload hp, rfl⟩
  | _ => exact ⟨_, .awaitingMore, rfl⟩

/-- R80: the frame is present exactly with FrameComplete, and the dispatch is of that frame. -/
theorem RxOutput.parts (ho : RxOutput b s o) :
    ∃ c f d, o = .rxOut c f d ∧ (f.isSome = true ↔ c = .frameComplete) ∧
      ∀ dd, d = some dd → f = some ⟨dd.id, dd.payload⟩ ∧ regTag s.reg dd.id = some dd.tag := by
  cases ho with
  | frameComplete h hb id hid payload hp =>
    refine ⟨_, _, _, rfl, iff_of_true rfl rfl, fun dd hd => ?_⟩
    obtain ⟨tag, htag, rfl⟩ := dispatchOf_eq_some.1 hd
    exact ⟨rfl, htag⟩
  | _ => exact ⟨_, _, _, rfl, iff_of_false nofun nofun, nofun⟩

/-- R81: the result names the rule, and so the framer state. -/
theorem RxOutput.source {c : RxCode} {f : Option Frame} {d : Option Dispatched} (ho : RxOutput b s (.rxOut c f d)) :
    c = .awaitingMore ∨
    (c = .frameComplete ∧ s.rxState = .readStop2 ∧ b = s.params.stop2) ∨
    (c = .badLength ∧ s.rxState = .readLenHigh) ∨
    (c = .crcMismatch ∧ s.rxState = .readCrc ∧ s.rxCrcPhase = true) ∨
    (c = .badStopByte ∧ (s.rxState = .readStop1 ∨ s.rxState = .readStop2)) := by
  cases ho with
  | awaitingMore => exact .inl rfl
  | frameComplete h hb => exact .inr (.inl ⟨rfl, h, hb⟩)
  | badLength h => exact .inr (.inr (.inl ⟨rfl, h⟩))
  | crcMismatch h hp => exact .inr (.inr (.inr (.inl ⟨rfl, h, hp⟩)))
  | badStopByte h => exact .inr (.inr (.inr (.inr ⟨rfl, h⟩)))

/-! ### The outputs of the other operations -/

theorem execTick_output (h : execTick s = .next t) :
    ∃ o, emitted s t o ∧ (o = .rxOut .awaitingMore none none ∨ o = .rxOut .timeout none none) := by
  rcases execTick_cases s with ⟨-, e⟩ | ⟨-, -, e⟩ | ⟨-, -, e⟩ <;> rw [e] at h <;> cases h
  · exact ⟨_, rfl, .inl rfl⟩
  · exact ⟨_, rfl, .inl rfl⟩
  · exact ⟨_, rfl, .inr rfl⟩

theorem encodeOutput_cases (p : Params) (id : Byte) (n : Half) (payload : List Byte) (space : Option Nat) :
    encodeOutput p id n payload space = .txOut .insufficientSpace [] ∨
    ∃ bytes, encodeOutput p id n payload space = .txOut .success bytes := by
  unfold encodeOutput
  split
  · exact .inl rfl
  · exact .inr ⟨_, rfl⟩

theorem afterEncode_output (id : Byte) (n : Half) (payload : List Byte) (space : Option Nat) (s : State) :
    ((Instr.encode id n payload space).wellFormed s.params = false ∧
      (afterEncode id n payload space s).outputs = s.outputs) ∨
    ((Instr.encode id n payload space).wellFormed s.params = true ∧
      emitted s (afterEncode id n payload space s) (encodeOutput s.params id n payload space)) := by
  rcases afterEncode_cases id n payload space s with ⟨r, hr, e⟩ | ⟨hr, e⟩
  · refine .inl ⟨Bool.eq_false_iff.2 fun hw => ?_, by rw [e, refuse_outputs]⟩
    rw [encodeRefusal_eq_none.2 hw] at hr
    cases hr
  · exact .inr ⟨encodeRefusal_eq_none.1 hr, by rw [e]; rfl⟩

/-- One step's output is the last of all the outputs. -/
theorem emitted_unique {o' : Output} (h : emitted s t o) (h' : emitted s t o') : o = o' := by
  simpa using List.append_cancel_left (h.symm.trans h')

/-! ### The statements -/

/-- Settles O12, operation by operation. -/
theorem everyOperationEmitsOneOutput : Obligations.EveryOperationEmitsOneOutput := by
  intro i s t h
  cases i with
  | rxByte b =>
    obtain ⟨o, ho, he⟩ := (execRxByte_rule h).output
    exact .inr ⟨rfl, o, he, ho.parts⟩
  | tick => exact .inr ⟨rfl, execTick_output h⟩
  | encode id n payload space =>
    cases h
    refine (afterEncode_output id n payload space s).imp_right fun ⟨hw, he⟩ => ⟨hw, _, he, ?_⟩
    exact encodeOutput_cases s.params id n payload space
  | crcInit | crcFeed | crcUpdate => cases h; exact .inr ⟨rfl, _, rfl, _, rfl⟩
  | regSet | cfgTimeout | reset => cases h; exact .inr ⟨rfl, _, rfl, rfl⟩

/-- Settles O13: by the kind of its output the operation is `RX_BYTE`, whose outputs name their rule, or `TICK`. -/
theorem receiveResultsAndTheirSources : Obligations.ReceiveResultsAndTheirSources := by
  refine ⟨⟨rfl, rfl, rfl, rfl, rfl, rfl⟩, fun i s t c f d h he => ?_⟩
  rcases everyOperationEmitsOneOutput i s t h with ⟨-, e⟩ | ⟨-, o, ho, hkind⟩
  · exact absurd (he.symm.trans e) (by simp)
  cases emitted_unique he ho
  cases i with
  | rxByte b =>
    obtain ⟨o, hrx, ho⟩ := (execRxByte_rule h).output
    cases emitted_unique he ho
    exact .inl ⟨b, rfl, hrx.source⟩
  | tick =>
    rcases hkind with e | e <;> cases e
    · exact .inr ⟨rfl, .inl rfl⟩
    · exact .inr ⟨rfl, .inr rfl⟩
  | encode id n payload space => rcases hkind with e | ⟨_, e⟩ <;> cases e
  | crcInit | crcFeed | crcUpdate => obtain ⟨v, e⟩ := hkind; cases e
  | regSet | cfgTimeout | reset => cases hkind

end Sys2Proof.Machine
end

section
/-! The expansion of `CRC_COMPUTE` (30_encoding.md R84, 40_crc.md R102). -/

namespace Sys2Proof.Machine

/-- `CRC_FEED` of each byte folds the bytes into the accumulator and emits one output per byte; the last output, or the
one before them all, is the accumulator. -/
theorem runInstrs_crcFeeds (bytes : List Byte) (s : State) :
    ∃ outs, runInstrs (bytes.map .crcFeed) s =
        .next { s with crcAcc := crc16Fold s.crcAcc bytes, outputs := s.outputs ++ outs } ∧
      outs.length = bytes.length ∧
      (Output.crcOut s.crcAcc :: outs).getLast? = some (.crcOut (crc16Fold s.crcAcc bytes)) := by
  induction bytes generalizing s with
  | nil => exact ⟨[], by simp, rfl, rfl⟩
  | cons b bytes ih =>
    have hfeed : exec (.crcFeed b) s = .next
        { s with crcAcc := crc16Upd s.crcAcc b, outputs := s.outputs ++ [.crcOut (crc16Upd s.crcAcc b)] } := rfl
    obtain ⟨outs, hrun, hlen, hlast⟩ := ih
      { s with crcAcc := crc16Upd s.crcAcc b, outputs := s.outputs ++ [.crcOut (crc16Upd s.crcAcc b)] }
    refine ⟨.crcOut (crc16Upd s.crcAcc b) :: outs, ?_, by rw [List.length_cons, hlen, List.length_cons], ?_⟩
    · rw [List.map_cons, runInstrs_cons hfeed, hrun]
      simp
    · rw [List.getLast?_cons_cons]
      exact hlast

/-- Settles O22: `CRC_INIT` emits the zero from which the bytes are folded. -/
theorem crcComputeExpansion : Obligations.CrcComputeExpansion := by
  intro bytes s
  have hinit : exec .crcInit s = .next { s with crcAcc := 0, outputs := s.outputs ++ [.crcOut 0] } := rfl
  obtain ⟨outs, hrun, hlen, hlast⟩ :=
    runInstrs_crcFeeds bytes { s with crcAcc := 0, outputs := s.outputs ++ [.crcOut 0] }
  refine ⟨.crcOut 0 :: outs, ?_, congrArg (· + 1) hlen, hlast⟩
  rw [crcComputeOps, runInstrs_cons hinit, hrun]
  simp [crc16Compute]

end Sys2Proof.Machine
end

section
/-! A completed frame was on the wire (30_encoding.md R70, R72): what the framer holds of a frame are the last bytes it
has received. -/

namespace Sys2Proof.Machine

variable {b : Byte} {s t : State} {wire : List Byte}

/-! ### What is held of a frame -/

/-- The bytes received end in the start markers, the covered bytes and `tail`, and the running CRC is that of the
covered bytes (41_rx_framer.md R143). -/
def CoveredOnWire (wire : List Byte) (s : State) (covered tail : List Byte) : Prop :=
  [s.params.start1, s.params.start2] ++ covered ++ tail <:+ wire ∧ s.rxCrc = crc16Compute covered

/-- The same where the covered bytes are the header and the first `n` bytes of the buffer. -/
def PayloadOnWire (wire : List Byte) (s : State) (n : Half) (tail : List Byte) : Prop :=
  ∃ id payload, s.rxId = some id ∧ bufReadFrom s.params s.rxBuf 0 n.toNat = .ok payload ∧
    CoveredOnWire wire s (coveredBytes id s.rxLen payload) tail

/-- What the framer holds in each of its states is what it has received since the first start marker. -/
def HeldOnWire (wire : List Byte) (s : State) : Prop :=
  match s.rxState with
  | .awaitStart1 => True
  | .awaitStart2 => [s.params.start1] <:+ wire ∧ s.rxIdx = 0 ∧ s.rxCrc = 0
  | .readId => CoveredOnWire wire s [] [] ∧ s.rxIdx = 0
  | .readLenLow => ∃ id, s.rxId = some id ∧ CoveredOnWire wire s [id] [] ∧ s.rxIdx = 0
  | .readLenHigh => ∃ id, s.rxId = some id ∧ CoveredOnWire wire s [id, lowByte s.rxLen] [] ∧ s.rxIdx = 0
  | .readData => PayloadOnWire wire s s.rxIdx []
  | .readCrc => PayloadOnWire wire s s.rxLen (if s.rxCrcPhase then s.rxCrcLo.toList else [])
  | .readStop1 => PayloadOnWire wire s s.rxLen (wireBytes s.rxCrc)
  | .readStop2 => PayloadOnWire wire s s.rxLen (wireBytes s.rxCrc ++ [s.params.stop1])

theorem heldOnWire_awaitStart1 (h : s.rxState = .awaitStart1) : HeldOnWire wire s := by
  rw [HeldOnWire, h]; trivial

theorem heldOnWire_readData (h : s.rxState = .readData) : HeldOnWire wire s ↔ PayloadOnWire wire s s.rxIdx [] := by
  rw [HeldOnWire, h]

theorem heldOnWire_readCrc (h : s.rxState = .readCrc) : HeldOnWire wire s ↔
    PayloadOnWire wire s s.rxLen (if s.rxCrcPhase then s.rxCrcLo.toList else []) := by
  rw [HeldOnWire, h]

theorem heldOnWire_readStop2 (h : s.rxState = .readStop2) : HeldOnWire wire s ↔
    PayloadOnWire wire s s.rxLen (wireBytes s.rxCrc ++ [s.params.stop1]) := by
  rw [HeldOnWire, h]

/-! ### One more byte -/

theorem crc16Compute_concat (bytes : List Byte) (b : Byte) :
    crc16Compute (bytes ++ [b]) = crc16Upd (crc16Compute bytes) b :=
  crc16Fold_append 0 bytes [b]

theorem coveredBytes_concat (id : Byte) (n : Half) (payload : List Byte) (b : Byte) :
    coveredBytes id n (payload ++ [b]) = coveredBytes id n payload ++ [b] := by
  simp [coveredBytes]

/-- The header, once the length's high byte has arrived (R71). -/
theorem coveredBytes_declaredLength (id b : Byte) (n : Half) :
    coveredBytes id (declaredLength b n) [] = [id, lowByte n] ++ [b] := by
  simp [coveredBytes, wireBytes, declaredLength]

theorem suffix_concat {l : List Byte} (h : l <:+ wire) (b : Byte) : l ++ [b] <:+ wire ++ [b] :=
  List.suffix_concat_iff.2 (.inr ⟨l, rfl, h⟩)

/-- A byte that is not folded is the next of the tail. -/
theorem CoveredOnWire.next {covered tail : List Byte} (h : CoveredOnWire wire s covered tail) (b : Byte) :
    CoveredOnWire (wire ++ [b]) s covered (tail ++ [b]) := by
  refine ⟨?_, h.2⟩
  rw [← List.append_assoc]
  exact suffix_concat h.1 b

/-- A byte that is folded is the next of the covered bytes. -/
theorem CoveredOnWire.fold {covered : List Byte} (h : CoveredOnWire wire s covered []) (b : Byte) :
    CoveredOnWire (wire ++ [b]) { s with rxCrc := crc16Upd s.rxCrc b } (covered ++ [b]) [] := by
  obtain ⟨hwire, hcrc⟩ := h
  refine ⟨?_, ?_⟩
  · simpa using suffix_concat hwire b
  · rw [crc16Compute_concat, ← hcrc]

theorem PayloadOnWire.next {n : Half} {tail : List Byte} (h : PayloadOnWire wire s n tail) (b : Byte) :
    PayloadOnWire (wire ++ [b]) s n (tail ++ [b]) := by
  obtain ⟨id, payload, hid, hp, hcov⟩ := h
  exact ⟨id, payload, hid, hp, hcov.next b⟩

/-- 41_rx_framer.md R131: the byte stored is the next of the payload. -/
theorem PayloadOnWire.store (h : PayloadOnWire wire s s.rxIdx []) (b : Byte)
    (hi : s.rxIdx.toNat < s.params.rxCap.val) :
    PayloadOnWire (wire ++ [b]) (payloadStored b s) (s.rxIdx + 1) [] := by
  obtain ⟨id, payload, hid, hp, hcov⟩ := h
  refine ⟨id, payload ++ [b], hid, ?_, ?_⟩
  · rw [rxIdx_succ_toNat hi]
    exact bufReadFrom_write_next b hi hp
  · rw [coveredBytes_concat]
    exact hcov.fold b

/-- A header without a payload: the buffer's first 0 bytes. -/
theorem payloadOnWire_of_header {id : Byte} {n : Half} (hid : s.rxId = some id) (hn : n = 0)
    (hcov : CoveredOnWire wire s (coveredBytes id s.rxLen []) []) : PayloadOnWire wire s n [] :=
  ⟨id, [], hid, by rw [hn]; rfl, hcov⟩

/-- One case per rule R122 to R138: a rule that ends a frame leaves nothing held, and every other appends its byte to
what is held. -/
theorem RxRule.keeps_heldOnWire (hr : RxRule b s t) (h : HeldOnWire wire s) : HeldOnWire (wire ++ [b]) t := by
  have hw := h
  unfold HeldOnWire at h
  cases hr with
  | resync | frameComplete | badLength | crcMismatch | badStop1 | badStop2 => exact heldOnWire_awaitStart1 rfl
  | ignored hs => exact heldOnWire_awaitStart1 hs
  | startMarker hs hb => exact ⟨hb ▸ List.suffix_append wire [b], rfl, rfl⟩
  | secondMarker hs hb =>
    rw [hs] at h
    obtain ⟨hwire, hidx, hcrc⟩ := h
    exact ⟨⟨hb ▸ suffix_concat hwire b, hcrc⟩, hidx⟩
  | frameId hs =>
    rw [hs] at h
    obtain ⟨hcov, hidx⟩ := h
    exact ⟨b, rfl, hcov.fold b, hidx⟩
  | lenLow hs =>
    rw [hs] at h
    obtain ⟨id, hid, hcov, hidx⟩ := h
    refine ⟨id, hid, ?_, hidx⟩
    rw [emit_rxLen, lowByte_zeroExtend]
    exact hcov.fold b
  | emptyPayload hs hl =>
    rw [hs] at h
    obtain ⟨id, hid, hcov, -⟩ := h
    have hcov := hcov.fold b
    rw [← coveredBytes_declaredLength, hl] at hcov
    exact payloadOnWire_of_header hid rfl hcov
  | header hs =>
    rw [hs] at h
    obtain ⟨id, hid, hcov, hidx⟩ := h
    have hcov := hcov.fold b
    rw [← coveredBytes_declaredLength] at hcov
    exact payloadOnWire_of_header hid hidx hcov
  | lastPayloadByte hs hi hl =>
    have hstored := ((heldOnWire_readData hs).1 hw).store b hi
    rw [hl] at hstored
    exact hstored
  | payloadByte hs hi =>
    exact Iff.mpr (heldOnWire_readData hs) (((heldOnWire_readData hs).1 hw).store b hi)
  | crcLow hs hp =>
    have htail := (heldOnWire_readCrc hs).1 hw
    rw [hp] at htail
    exact Iff.mpr (heldOnWire_readCrc hs) (htail.next b)
  | crcMatch hs hp lo hlo hc =>
    have htail := (heldOnWire_readCrc hs).1 hw
    rw [hp, hlo] at htail
    obtain ⟨rfl, rfl⟩ := concatBytes_eq_iff.1 hc
    exact htail.next _
  | stopMarker hs hb =>
    rw [hs] at h
    exact hb ▸ h.next b

/-! ### A stream of bytes -/

theorem runInstrs_append_next {is js : List Instr} (h : runInstrs (is ++ js) s = .next t) :
    ∃ u, runInstrs is s = .next u ∧ runInstrs js u = .next t := by
  induction is generalizing s with
  | nil => exact ⟨s, rfl, h⟩
  | cons i is ih =>
    obtain ⟨u, hu, hrest⟩ := runInstrs_cons_next h
    rw [runInstrs_cons hu]
    exact ih hrest

theorem heldOnWire_stream {bytes : List Byte} (h : HeldOnWire wire s)
    (hrun : runInstrs (rxStreamOps bytes) s = .next t) : HeldOnWire (wire ++ bytes) t ∧ t.params = s.params := by
  induction bytes generalizing wire s with
  | nil => cases hrun; exact ⟨by rwa [List.append_nil], rfl⟩
  | cons b bytes ih =>
    obtain ⟨u, hu, hrest⟩ := runInstrs_cons_next hrun
    have hr : RxRule b s u := execRxByte_rule hu
    obtain ⟨ht, hp⟩ := ih (hr.keeps_heldOnWire h) hrest
    exact ⟨by rwa [List.append_assoc] at ht, hp.trans hr.params_eq⟩

/-- In `ReadStop2` all of a frame but its last byte has been received. -/
theorem frame_of_heldOnWire_readStop2 {id : Byte} {payload : List Byte} (h : HeldOnWire wire s)
    (hs : s.rxState = .readStop2) (hid : s.rxId = some id)
    (hp : bufReadFrom s.params s.rxBuf 0 s.rxLen.toNat = .ok payload) :
    frameBytes s.params id s.rxLen payload <:+ wire ++ [s.params.stop2] := by
  obtain ⟨id', payload', hid', hp', hwire, hcrc⟩ := (heldOnWire_readStop2 hs).1 h
  cases hid.symm.trans hid'
  cases hp.symm.trans hp'
  rw [hcrc] at hwire
  simpa [frameBytes] using suffix_concat hwire s.params.stop2

/-- What is read of the buffer lies below `RX_CAP`. -/
theorem length_le_rxCap_of_bufReadFrom {p : Params} {m : Memory} {n : Nat} {payload : List Byte}
    (h : bufReadFrom p m 0 n = .ok payload) : payload.length ≤ p.rxCap.val := by
  obtain ⟨-, hcell⟩ := bufReadFrom_eq_ok.1 h
  by_contra hlt
  have := (hcell p.rxCap.val (by omega)).1
  omega

/-- Settles O45: the last byte completed the frame that was held before it. -/
theorem completedFrameWasOnTheWire : Obligations.CompletedFrameWasOnTheWire := by
  intro bytes s t id payload d outs hs hrun hout hlast
  rcases List.eq_nil_or_concat' bytes with rfl | ⟨init, b, rfl⟩
  · cases hrun
    rw [List.self_eq_append_right.1 hout] at hlast
    cases hlast
  rw [rxStreamOps, List.map_append] at hrun
  obtain ⟨u, hinit, hstep⟩ := runInstrs_append_next hrun
  obtain ⟨v, hv, hnil⟩ := runInstrs_cons_next hstep
  cases hnil
  obtain ⟨hheld, hparams⟩ := heldOnWire_stream (wire := []) (heldOnWire_awaitStart1 hs) hinit
  obtain ⟨o, ho, he⟩ := (execRxByte_rule hv).output
  have hlast_o : some o = some (.rxOut .frameComplete (some ⟨id, payload⟩) d) :=
    calc some o = t.outputs.getLast? := by rw [he, List.getLast?_concat]
      _ = _ := by rw [hout, List.getLast?_append, hlast, Option.some_or]
  cases hlast_o
  cases ho with
  | frameComplete hs2 hb _ hid _ hp =>
    have hlen : BitVec.ofNat 16 payload.length = u.rxLen := by
      rw [(bufReadFrom_eq_ok.1 hp).1, BitVec.ofNat_toNat, BitVec.setWidth_eq]
    obtain ⟨before, hbefore⟩ := frame_of_heldOnWire_readStop2 hheld hs2 hid hp
    rw [← hparams, hlen, hb]
    exact ⟨length_le_rxCap_of_bufReadFrom hp, before, hbefore.symm⟩

end Sys2Proof.Machine
end

section
/-! The parts of a line of text (30_encoding.md R83): pieces and blanks, numbers, fields, lists of fields. -/

namespace Sys2Proof.Machine

/-! ### Pieces without separators -/

/-- The characters the reader divides a line at, or trims. -/
def separators : List Char := [' ', '\t', '\r', ';', ',', '[', ']']

/-- A piece of text that the reader does not divide. -/
def Solid (t : List Char) : Prop := ∀ c ∈ t, c ∉ separators

theorem solid_of_all {t : List Char} (h : (t.all fun c => decide (c ∉ separators)) = true) : Solid t := by
  simpa [Solid] using h

theorem solid_append {t u : List Char} : Solid (t ++ u) ↔ Solid t ∧ Solid u :=
  List.forall_mem_append

theorem Solid.not_mem {t : List Char} (h : Solid t) {c : Char} (hc : c ∈ separators) : c ∉ t :=
  fun hm => h c hm hc

theorem isBlank_of_not_separator {c : Char} (h : c ∉ separators) : isBlank c = false := by
  simp only [separators, List.mem_cons, not_or] at h
  simp [isBlank, h]

/-- A text whose last character is no blank. -/
def EndsNoBlank (t : List Char) : Prop := ∃ c, t.getLast? = some c ∧ isBlank c = false

theorem EndsNoBlank.append {u : List Char} (h : EndsNoBlank u) (t : List Char) : EndsNoBlank (t ++ u) := by
  obtain ⟨c, hc, hb⟩ := h
  exact ⟨c, by rw [List.getLast?_append, hc, Option.some_or], hb⟩

theorem Solid.endsNoBlank {t : List Char} (h : Solid t) (hne : t ≠ []) : EndsNoBlank t :=
  ⟨t.getLast hne, List.getLast?_eq_some_getLast hne, isBlank_of_not_separator (h _ (List.getLast_mem hne))⟩

/-! ### Blanks -/

@[simp] theorem trimBlanks_cons_blank (t : List Char) : trimBlanks (' ' :: t) = trimBlanks t := rfl

/-- Blanks are taken from the two ends of a text and from nowhere else. -/
theorem trimBlanks_cons_eq_self {c : Char} {t : List Char} (hc : isBlank c = false) (h : EndsNoBlank (c :: t)) :
    trimBlanks (c :: t) = c :: t := by
  obtain ⟨d, hd, hb⟩ := h
  obtain ⟨u, hu⟩ := List.getLast?_eq_some_iff.1 hd
  rw [trimBlanks, List.dropWhile_cons_of_neg (by simp [hc]), hu, List.reverse_append, List.reverse_singleton,
    List.singleton_append, List.dropWhile_cons_of_neg (by simp [hb])]
  simp

theorem Solid.trimBlanks {t : List Char} (h : Solid t) : trimBlanks t = t := by
  cases t with
  | nil => rfl
  | cons c t =>
    exact trimBlanks_cons_eq_self (isBlank_of_not_separator (h c List.mem_cons_self))
      (h.endsNoBlank (List.cons_ne_nil c t))

/-! ### Division at a character -/

theorem splitAtChar_ne_nil (sep : Char) (t : List Char) : splitAtChar sep t ≠ [] := by
  cases t with
  | nil => exact List.cons_ne_nil _ _
  | cons c t =>
    unfold splitAtChar
    split
    · exact List.cons_ne_nil _ _
    · split <;> exact List.cons_ne_nil _ _

theorem splitAtChar_cons_self (sep : Char) (t : List Char) : splitAtChar sep (sep :: t) = [] :: splitAtChar sep t := by
  rw [splitAtChar]
  split
  · next h => exact absurd h (splitAtChar_ne_nil sep t)
  · next h => rw [if_pos rfl, h]

theorem splitAtChar_cons_of_ne {sep c : Char} {t piece : List Char} {pieces : List (List Char)} (hc : c ≠ sep)
    (h : splitAtChar sep t = piece :: pieces) : splitAtChar sep (c :: t) = (c :: piece) :: pieces := by
  simp only [splitAtChar, h, if_neg hc]

theorem splitAtChar_of_not_mem {sep : Char} {t : List Char} (h : sep ∉ t) : splitAtChar sep t = [t] := by
  induction t with
  | nil => rfl
  | cons c t ih =>
    obtain ⟨hc, ht⟩ := not_or.1 (mt List.mem_cons.2 h)
    exact splitAtChar_cons_of_ne (Ne.symm hc) (ih ht)

theorem splitAtChar_append {sep : Char} {t : List Char} (h : sep ∉ t) (u : List Char) :
    splitAtChar sep (t ++ sep :: u) = t :: splitAtChar sep u := by
  induction t with
  | nil => exact splitAtChar_cons_self sep u
  | cons c t ih =>
    obtain ⟨hc, ht⟩ := not_or.1 (mt List.mem_cons.2 h)
    exact splitAtChar_cons_of_ne (Ne.symm hc) (ih ht)

/-! ### Numbers -/

theorem readNumber_of_ne_nil {t : List Char} (h : t ≠ []) (base : Nat) : readNumber base t = readDigits base 0 t := by
  cases t with
  | nil => exact absurd rfl h
  | cons c t => rfl

theorem readDigits_append {base acc v : Nat} {t : List Char} (h : readDigits base acc t = some v) (u : List Char) :
    readDigits base acc (t ++ u) = readDigits base v u := by
  induction t generalizing acc with
  | nil => cases h; rfl
  | cons c t ih =>
    unfold readDigits at h
    split at h
    · next d hd => simp only [List.cons_append, readDigits, hd]; exact ih h
    · cases h

theorem digitValue_hexDigit {n : Nat} (h : n < 16) : digitValue 16 (hexDigit n) = some n := by
  interval_cases n <;> decide

theorem hexDigit_not_separator {n : Nat} (h : n < 16) : hexDigit n ∉ separators := by
  interval_cases n <;> decide

theorem solid_hexDigits (k v : Nat) : Solid (hexDigits k v) := by
  induction k generalizing v with
  | zero => exact nofun
  | succ k ih =>
    exact solid_append.2 ⟨ih _, List.forall_mem_singleton.2 (hexDigit_not_separator (Nat.mod_lt _ (by decide)))⟩

theorem hexDigits_ne_nil {k : Nat} (hk : k ≠ 0) (v : Nat) : hexDigits k v ≠ [] := by
  cases k with
  | zero => exact absurd rfl hk
  | succ k => exact List.append_ne_nil_of_right_ne_nil _ (List.cons_ne_nil _ _)

theorem readDigits_hexDigits (k v acc : Nat) :
    readDigits 16 acc (hexDigits k v) = some (acc * 16 ^ k + v % 16 ^ k) := by
  induction k generalizing v with
  | zero => simp [hexDigits, readDigits, Nat.mod_one]
  | succ k ih =>
    rw [hexDigits, readDigits_append (ih _)]
    simp only [readDigits, digitValue_hexDigit (Nat.mod_lt _ (by decide : 16 > 0))]
    rw [Nat.pow_succ', Nat.mod_mul]
    congr 1
    ring

theorem digitValue_of_isDigit {c : Char} (h : c.isDigit = true) : digitValue 10 c = some (c.toNat - '0'.toNat) := by
  have hr : '0' ≤ c ∧ c ≤ '9' := (by simpa [Char.isDigit] using h : 48 ≤ c.val ∧ c.val ≤ 57)
  have hv : c.toNat - 48 < 10 := by
    have : c.toNat ≤ 57 := hr.2
    omega
  simp only [digitValue, if_pos hr, if_pos hv]
  rfl

theorem not_separator_of_isDigit {c : Char} (h : c.isDigit = true) : c ∉ separators := by
  rintro hc
  fin_cases hc <;> exact absurd h (by decide)

/-- Decimal digits read as the library reads them. -/
theorem readDigits_of_isDigit {t : List Char} (h : ∀ c ∈ t, c.isDigit = true) (acc : Nat) :
    readDigits 10 acc t = some (Nat.ofDigitChars 10 t acc) := by
  induction t generalizing acc with
  | nil => rfl
  | cons c t ih =>
    obtain ⟨hc, ht⟩ := List.forall_mem_cons.1 h
    simp only [readDigits, digitValue_of_isDigit hc, ih ht]
    rw [Nat.mul_comm acc]
    rfl

theorem isDigit_of_mem_toDigits {k : Nat} : ∀ c ∈ Nat.toDigits 10 k, c.isDigit = true :=
  fun _ => Nat.isDigit_of_mem_toDigits (by decide) (by decide)

theorem readNumber_toDigits (k : Nat) : readNumber 10 (Nat.toDigits 10 k) = some k := by
  rw [readNumber_of_ne_nil Nat.toDigits_ne_nil, readDigits_of_isDigit isDigit_of_mem_toDigits,
    Nat.ofDigitChars_ten_toDigits]

/-! ### Hexadecimal fields -/

theorem solid_hexText (k v : Nat) : Solid (hexText k v) :=
  solid_append (t := ['0', 'x']).2 ⟨solid_of_all (by decide), solid_hexDigits k v⟩

theorem hexText_endsNoBlank (k v : Nat) : EndsNoBlank (hexText k v) :=
  (solid_hexText k v).endsNoBlank (List.cons_ne_nil _ _)

@[simp] theorem readField_cons_blank (w : Nat) (t : List Char) : readField w (' ' :: t) = readField w t := rfl

/-- A field written with all digits of its width reads as its value. -/
theorem readField_hexText {w k : Nat} (hw : 2 ^ w = 16 ^ k) (hk : k ≠ 0) (v : BitVec w) :
    readField w (hexText k v.toNat) = some v := by
  have hnum : readNumber 16 (hexDigits k v.toNat) = some v.toNat := by
    rw [readNumber_of_ne_nil (hexDigits_ne_nil hk _), readDigits_hexDigits, ← hw, Nat.mod_eq_of_lt v.isLt,
      Nat.zero_mul, Nat.zero_add]
  rw [readField, (solid_hexText k v.toNat).trimBlanks, hexText]
  simp only [hnum, if_pos v.isLt, BitVec.ofNat_toNat, BitVec.setWidth_eq]

theorem readField_byte (b : Byte) : readField 8 (hexText 2 b.toNat) = some b :=
  readField_hexText (by decide) (by decide) b

theorem readField_half (v : Half) : readField 16 (hexText 4 v.toNat) = some v :=
  readField_hexText (by decide) (by decide) v

/-! ### Lists of pieces -/

theorem commaSeparated_cons_cons (a b : List Char) (rest : List (List Char)) :
    commaSeparated (a :: b :: rest) = a ++ ',' :: ' ' :: commaSeparated (b :: rest) :=
  List.append_assoc ..

theorem splitAtChar_commaSeparated {a : List Char} {rest : List (List Char)} (h : ∀ p ∈ a :: rest, ',' ∉ p) :
    splitAtChar ',' (commaSeparated (a :: rest)) = a :: rest.map (' ' :: ·) := by
  induction rest generalizing a with
  | nil => exact splitAtChar_of_not_mem (h a List.mem_cons_self)
  | cons b rest ih =>
    obtain ⟨ha, hrest⟩ := List.forall_mem_cons.1 h
    rw [commaSeparated_cons_cons, splitAtChar_append ha, splitAtChar_cons_of_ne (by decide) (ih hrest), List.map_cons]

theorem not_mem_commaSeparated {c : Char} {ps : List (List Char)} (hc : c ∉ [',', ' ']) (h : ∀ p ∈ ps, c ∉ p) :
    c ∉ commaSeparated ps := by
  induction ps with
  | nil => exact List.not_mem_nil
  | cons a rest ih =>
    obtain ⟨ha, hrest⟩ := List.forall_mem_cons.1 h
    cases rest with
    | nil => exact ha
    | cons b rest => simpa [commaSeparated_cons_cons, ha, ih hrest] using hc

theorem commaSeparated_endsNoBlank {a : List Char} {rest : List (List Char)} (h : ∀ p ∈ a :: rest, EndsNoBlank p) :
    EndsNoBlank (commaSeparated (a :: rest)) := by
  induction rest generalizing a with
  | nil => exact h a List.mem_cons_self
  | cons b rest ih => exact (ih (List.forall_mem_cons.1 h).2).append (a ++ [',', ' '])

theorem readFields_map {w : Nat} {f : BitVec w → List Char} (hf : ∀ v, readField w (f v) = some v)
    (vs : List (BitVec w)) : readFields w (vs.map f) = some vs := by
  induction vs with
  | nil => rfl
  | cons v vs ih => simp only [List.map_cons, readFields, hf, ih]

end Sys2Proof.Machine
end

section
/-! The textual form of an operation reads back as the operation (30_encoding.md R83). -/

namespace Sys2Proof.Machine

/-! ### A line -/

/-- The text of a line without a comment: a mnemonic, a blank and the operands. -/
theorem readLine_of_operands {m t : List Char} (hm : Solid m) (hne : m ≠ []) (ht : ';' ∉ t) (hend : EndsNoBlank t) :
    readLine (m ++ ' ' :: t) = (readInstr m (' ' :: t)).map some := by
  have hcomment : (m ++ ' ' :: t).takeWhile (fun c => c != ';') = m ++ ' ' :: t := by
    refine List.takeWhile_eq_self_iff.2 fun c hc => bne_iff_ne.2 ?_
    rintro rfl
    rcases List.mem_append.1 hc with hc | hc
    · exact hm _ hc (by decide)
    · exact ht ((List.mem_cons.1 hc).resolve_left (by decide))
  have hmnemonic : ∀ c ∈ m, (!isBlank c) = true := fun c hc => by rw [isBlank_of_not_separator (hm c hc)]; rfl
  obtain ⟨c, u, rfl⟩ := List.exists_cons_of_ne_nil hne
  have htrim : trimBlanks (c :: u ++ ' ' :: t) = c :: u ++ ' ' :: t :=
    trimBlanks_cons_eq_self (isBlank_of_not_separator (hm c List.mem_cons_self)) ((hend.append [' ']).append (c :: u))
  simp only [readLine, hcomment, htrim]
  rw [if_neg (by simp), List.takeWhile_append_of_pos hmnemonic, List.dropWhile_append_of_pos hmnemonic]
  simp [isBlank]

/-! ### What is written and read with each mnemonic -/

theorem instrText_rxByte (b : Byte) :
    instrText (.rxByte b) = "RX_BYTE".toList ++ ' ' :: hexText 2 b.toNat := by
  change "RX_BYTE ".toList ++ hexText 2 b.toNat = _
  simp

theorem instrText_crcFeed (b : Byte) :
    instrText (.crcFeed b) = "CRC_FEED".toList ++ ' ' :: hexText 2 b.toNat := by
  change "CRC_FEED ".toList ++ hexText 2 b.toNat = _
  simp

theorem instrText_crcUpdate (c : Half) (b : Byte) :
    instrText (.crcUpdate c b) =
      "CRC_UPDATE".toList ++ ' ' :: commaSeparated [hexText 4 c.toNat, hexText 2 b.toNat] := by
  change "CRC_UPDATE ".toList ++ commaSeparated [hexText 4 c.toNat, hexText 2 b.toNat] = _
  simp

theorem instrText_regSet (id : Byte) (tag : Tag) :
    instrText (.regSet id tag) =
      "REG_SET".toList ++ ' ' :: commaSeparated [hexText 2 id.toNat, hexText 4 tag.toNat] := by
  change "REG_SET ".toList ++ commaSeparated [hexText 2 id.toNat, hexText 4 tag.toNat] = _
  simp

theorem instrText_cfgTimeout (t : Half) :
    instrText (.cfgTimeout t) = "CFG_TIMEOUT".toList ++ ' ' :: hexText 4 t.toNat := by
  change "CFG_TIMEOUT ".toList ++ hexText 4 t.toNat = _
  simp

theorem readInstr_rxByte (t : List Char) : readInstr "RX_BYTE".toList t = (readField 8 t).map .rxByte := by
  simp [readInstr]

theorem readInstr_crcFeed (t : List Char) : readInstr "CRC_FEED".toList t = (readField 8 t).map .crcFeed := by
  simp [readInstr]

theorem readInstr_crcUpdate (t : List Char) : readInstr "CRC_UPDATE".toList t = readPair 16 8 .crcUpdate t := by
  simp [readInstr]

theorem readInstr_regSet (t : List Char) : readInstr "REG_SET".toList t = readPair 8 16 .regSet t := by
  simp [readInstr]

theorem readInstr_cfgTimeout (t : List Char) : readInstr "CFG_TIMEOUT".toList t = (readField 16 t).map .cfgTimeout := by
  simp [readInstr]

theorem readInstr_encode (t : List Char) : readInstr "ENCODE".toList t = readEncode t := by
  simp [readInstr]

/-! ### Operands -/

theorem not_mem_hexText {c : Char} (hc : c ∈ separators) (k v : Nat) : c ∉ hexText k v :=
  (solid_hexText k v).not_mem hc

/-- The line of an operation with one field. -/
theorem readLine_field {m : List Char} {w k : Nat} {make : BitVec w → Instr}
    (hread : ∀ t, readInstr m t = (readField w t).map make) (hm : Solid m) (hne : m ≠ []) (hw : 2 ^ w = 16 ^ k)
    (hk : k ≠ 0) (v : BitVec w) :
    readLine (m ++ ' ' :: hexText k v.toNat) = some (some (make v)) := by
  rw [readLine_of_operands hm hne (not_mem_hexText (by decide) k _) (hexText_endsNoBlank k _), hread,
    readField_cons_blank, readField_hexText hw hk, Option.map_some, Option.map_some]

theorem readPair_hexTexts {v w k l : Nat} (hv : 2 ^ v = 16 ^ k) (hk : k ≠ 0) (hw : 2 ^ w = 16 ^ l) (hl : l ≠ 0)
    (make : BitVec v → BitVec w → Instr) (x : BitVec v) (y : BitVec w) :
    readPair v w make (' ' :: commaSeparated [hexText k x.toNat, hexText l y.toNat]) = some (make x y) := by
  have hsplit : splitAtChar ',' (' ' :: commaSeparated [hexText k x.toNat, hexText l y.toNat]) =
      [' ' :: hexText k x.toNat, ' ' :: hexText l y.toNat] :=
    splitAtChar_cons_of_ne (by decide) (splitAtChar_commaSeparated
      (by simp [not_mem_hexText (show ',' ∈ separators by decide)]))
  simp only [readPair, hsplit, readField_cons_blank, readField_hexText hv hk, readField_hexText hw hl]

/-- The line of an operation with two fields. -/
theorem readLine_pair {m : List Char} {v w k l : Nat} {make : BitVec v → BitVec w → Instr}
    (hread : ∀ t, readInstr m t = readPair v w make t) (hm : Solid m) (hne : m ≠ []) (hv : 2 ^ v = 16 ^ k)
    (hk : k ≠ 0) (hw : 2 ^ w = 16 ^ l) (hl : l ≠ 0) (x : BitVec v) (y : BitVec w) :
    readLine (m ++ ' ' :: commaSeparated [hexText k x.toNat, hexText l y.toNat]) = some (some (make x y)) := by
  have hcomment : ';' ∉ commaSeparated [hexText k x.toNat, hexText l y.toNat] :=
    not_mem_commaSeparated (by decide) (by simp [not_mem_hexText (show ';' ∈ separators by decide)])
  have hend : EndsNoBlank (commaSeparated [hexText k x.toNat, hexText l y.toNat]) :=
    commaSeparated_endsNoBlank (by simp [hexText_endsNoBlank])
  rw [readLine_of_operands hm hne hcomment hend, hread, readPair_hexTexts hv hk hw hl, Option.map_some]

/-! ### `ENCODE` -/

/-- The bytes between the brackets of an `ENCODE`. -/
def payloadText (payload : List Byte) : List Char := commaSeparated (payload.map fun b => hexText 2 b.toNat)

/-- What stands after the closing bracket of an `ENCODE`. -/
def afterBracket : Option Nat → List Char
  | none => []
  | some k => ',' :: ' ' :: ("space=".toList ++ Nat.toDigits 10 k)

/-- The operands of an `ENCODE`, up to the opening bracket and from it on. -/
def encodeOperands (id : Byte) (payload : List Byte) (space : Option Nat) : List Char :=
  hexText 2 id.toNat ++ [',', ' '] ++ '[' :: (payloadText payload ++ ']' :: afterBracket space)

theorem instrText_encode (id : Byte) (n : Half) (payload : List Byte) (space : Option Nat) :
    instrText (.encode id n payload space) = "ENCODE".toList ++ ' ' :: encodeOperands id payload space := by
  have hpieces : commaSeparated ([hexText 2 id.toNat, ['['] ++ payloadText payload ++ [']']] ++ spaceText space) =
      encodeOperands id payload space := by
    cases space <;> simp [commaSeparated, spaceText, encodeOperands, afterBracket]
  rw [← hpieces]
  rfl

theorem not_mem_payloadText {c : Char} (hc : c ∈ separators) (hc' : c ∉ [',', ' ']) (payload : List Byte) :
    c ∉ payloadText payload := by
  refine not_mem_commaSeparated hc' ?_
  simp [not_mem_hexText hc]

theorem readPayload_payloadText (payload : List Byte) : readPayload (payloadText payload) = some payload := by
  cases payload with
  | nil => rfl
  | cons b bs =>
    have hne : trimBlanks (payloadText (b :: bs)) ≠ [] := by
      obtain ⟨u, hu⟩ : ∃ u, payloadText (b :: bs) = '0' :: u := by cases bs <;> exact ⟨_, rfl⟩
      have hend : EndsNoBlank (payloadText (b :: bs)) := commaSeparated_endsNoBlank (by simp [hexText_endsNoBlank])
      rw [hu] at hend ⊢
      rw [trimBlanks_cons_eq_self rfl hend]
      exact List.cons_ne_nil _ _
    have hsplit : splitAtChar ',' (payloadText (b :: bs)) =
        hexText 2 b.toNat :: bs.map fun b => ' ' :: hexText 2 b.toNat := by
      rw [payloadText, List.map_cons, splitAtChar_commaSeparated
        (by simp [not_mem_hexText (show ',' ∈ separators by decide)]), List.map_map]
      rfl
    have hrest : readFields 8 (bs.map fun b => ' ' :: hexText 2 b.toNat) = some bs :=
      readFields_map (fun b => (readField_cons_blank 8 _).trans (readField_byte b)) bs
    simp only [readPayload, if_neg hne, hsplit, readFields, readField_byte, hrest]

theorem solid_spaceText (k : Nat) : Solid ("space=".toList ++ Nat.toDigits 10 k) :=
  solid_append.2 ⟨solid_of_all (by decide), fun c hc => not_separator_of_isDigit (isDigit_of_mem_toDigits c hc)⟩

theorem readSpace_afterBracket (space : Option Nat) : readSpace (afterBracket space) = some space := by
  cases space with
  | none => rfl
  | some k =>
    have hend : EndsNoBlank (afterBracket (some k)) :=
      ((solid_spaceText k).endsNoBlank (List.cons_ne_nil _ _)).append [',', ' ']
    have htrim : trimBlanks (afterBracket (some k)) = afterBracket (some k) := trimBlanks_cons_eq_self rfl hend
    have hread : readSpace (afterBracket (some k)) = (readNumber 10 (Nat.toDigits 10 k)).map some := by
      simp only [readSpace, htrim]
      simp only [afterBracket, trimBlanks_cons_blank, (solid_spaceText k).trimBlanks]
      rfl
    rw [hread, readNumber_toDigits, Option.map_some]

theorem encodeOperands_endsNoBlank (id : Byte) (payload : List Byte) (space : Option Nat) :
    EndsNoBlank (encodeOperands id payload space) := by
  have h : EndsNoBlank (']' :: afterBracket space) := by
    cases space with
    | none => exact ⟨']', rfl, rfl⟩
    | some k => exact ((solid_spaceText k).endsNoBlank (List.cons_ne_nil _ _)).append [']', ',', ' ']
  exact (h.append ('[' :: payloadText payload)).append _

theorem not_mem_afterBracket {c : Char} (hc : c ∈ separators) (hc' : c ∉ [',', ' ']) (space : Option Nat) :
    c ∉ afterBracket space := by
  cases space with
  | none => exact List.not_mem_nil
  | some k =>
    have := (solid_spaceText k).not_mem hc
    simp only [afterBracket, List.mem_cons] at hc' ⊢
    tauto

theorem readEncode_encodeOperands {n : Half} {payload : List Byte} (h : payload.length = n.toNat) (id : Byte)
    (space : Option Nat) :
    readEncode (' ' :: encodeOperands id payload space) = some (.encode id n payload space) := by
  have hbracket : splitAtChar '[' (' ' :: encodeOperands id payload space) =
      [' ' :: (hexText 2 id.toNat ++ [',', ' ']), payloadText payload ++ ']' :: afterBracket space] := by
    refine (splitAtChar_append (t := ' ' :: (hexText 2 id.toNat ++ [',', ' '])) ?_ _).trans
      (congrArg _ (splitAtChar_of_not_mem ?_))
    · simp [not_mem_hexText (show '[' ∈ separators by decide)]
    · simp [not_mem_payloadText (show '[' ∈ separators by decide),
        not_mem_afterBracket (show '[' ∈ separators by decide)]
  have hfront : splitAtChar ',' (' ' :: (hexText 2 id.toNat ++ [',', ' '])) = [' ' :: hexText 2 id.toNat, [' ']] :=
    splitAtChar_append (t := ' ' :: hexText 2 id.toNat)
      (by simp [not_mem_hexText (show ',' ∈ separators by decide)]) [' ']
  have hback : splitAtChar ']' (payloadText payload ++ ']' :: afterBracket space) =
      [payloadText payload, afterBracket space] := by
    rw [splitAtChar_append (not_mem_payloadText (by decide) (by decide) payload),
      splitAtChar_of_not_mem (not_mem_afterBracket (by decide) (by decide) space)]
  have hgap : trimBlanks [' '] = [] := rfl
  have hn : BitVec.ofNat 16 payload.length = n := by rw [h, BitVec.ofNat_toNat, BitVec.setWidth_eq]
  simp only [readEncode, hbracket, hfront, hback, hgap, readField_cons_blank, readField_byte, readPayload_payloadText,
    readSpace_afterBracket, hn, if_pos (h ▸ n.isLt : payload.length < 2 ^ 16)]

/-! ### The statement -/

theorem readLine_encodeText {n : Half} {payload : List Byte} (h : payload.length = n.toNat) (id : Byte)
    (space : Option Nat) :
    readLine (instrText (.encode id n payload space)) = some (some (.encode id n payload space)) := by
  have hcomment : ';' ∉ encodeOperands id payload space := by
    simp [encodeOperands, not_mem_hexText (show ';' ∈ separators by decide),
      not_mem_payloadText (show ';' ∈ separators by decide), not_mem_afterBracket (show ';' ∈ separators by decide)]
  rw [instrText_encode, readLine_of_operands (solid_of_all rfl) (by simp) hcomment
    (encodeOperands_endsNoBlank id payload space), readInstr_encode, readEncode_encodeOperands h, Option.map_some]

/-- Settles O6, operation by operation. -/
theorem textReadsBack : Obligations.TextReadsBack := by
  intro i hi
  cases i with
  | encode id n payload space => exact readLine_encodeText (hi id n payload space rfl) id space
  | tick | crcInit | reset => decide
  | rxByte b =>
    rw [instrText_rxByte]
    exact readLine_field (k := 2) readInstr_rxByte (solid_of_all rfl) (by simp) rfl nofun b
  | crcFeed b =>
    rw [instrText_crcFeed]
    exact readLine_field (k := 2) readInstr_crcFeed (solid_of_all rfl) (by simp) rfl nofun b
  | cfgTimeout t =>
    rw [instrText_cfgTimeout]
    exact readLine_field (k := 4) readInstr_cfgTimeout (solid_of_all rfl) (by simp) rfl nofun t
  | crcUpdate c b =>
    rw [instrText_crcUpdate]
    exact readLine_pair (k := 4) (l := 2) readInstr_crcUpdate (solid_of_all rfl) (by simp) rfl nofun rfl nofun c b
  | regSet id tag =>
    rw [instrText_regSet]
    exact readLine_pair (k := 2) (l := 4) readInstr_regSet (solid_of_all rfl) (by simp) rfl nofun rfl nofun id tag

end Sys2Proof.Machine
end

section
/-! The CRC update as division over GF(2) (40_crc.md R100, R101), and what follows of appended CRCs (R107). -/

namespace Sys2Proof.Machine

open Polynomial (X)
open Stated (polyOf crcGenerator)

/-! ### Words as polynomials over GF(2) -/

theorem coeff_polyOf {n : Nat} (v : BitVec n) (k : Nat) :
    (polyOf v).coeff k = if v.getLsbD k = true then 1 else 0 := by
  have hterm (i : Nat) : (if v.getLsbD i = true then (X ^ i : Polynomial (ZMod 2)) else 0).coeff k =
      if k = i then (if v.getLsbD i = true then 1 else 0) else 0 := by
    split <;> simp [Polynomial.coeff_X_pow]
  rw [polyOf, Polynomial.finsetSum_coeff, Finset.sum_congr rfl fun i _ => hterm i, Finset.sum_ite_eq]
  split
  · rfl
  · next hk => rw [BitVec.getLsbD_of_ge v k (by simpa using hk), if_neg Bool.false_ne_true]

theorem degree_polyOf_lt {n : Nat} (v : BitVec n) : (polyOf v).degree < n := by
  refine (Polynomial.degree_lt_iff_coeff_zero _ _).2 fun k hk => ?_
  rw [coeff_polyOf, BitVec.getLsbD_of_ge v k hk, if_neg Bool.false_ne_true]

theorem getLsbD_eq_true_iff_coeff {n : Nat} {v : BitVec n} {k : Nat} :
    v.getLsbD k = true ↔ (polyOf v).coeff k = 1 := by
  rw [coeff_polyOf]
  split <;> simp [*]

theorem polyOf_injective {n : Nat} : Function.Injective (polyOf (n := n)) := by
  intro u v h
  apply BitVec.eq_of_getLsbD_eq
  intro k _
  rw [Bool.eq_iff_iff, getLsbD_eq_true_iff_coeff, getLsbD_eq_true_iff_coeff, h]

@[simp] theorem polyOf_zero (n : Nat) : polyOf 0#n = 0 := by
  simp [polyOf]

/-- Exclusive-or is addition. -/
theorem polyOf_xor {n : Nat} (u v : BitVec n) : polyOf (u ^^^ v) = polyOf u + polyOf v := by
  ext k
  rw [Polynomial.coeff_add, coeff_polyOf, coeff_polyOf, coeff_polyOf, BitVec.getLsbD_xor]
  cases u.getLsbD k <;> cases v.getLsbD k <;> decide

theorem polyOf_append {m n : Nat} (u : BitVec m) (v : BitVec n) : polyOf (u ++ v) = polyOf u * X ^ n + polyOf v := by
  ext k
  rw [Polynomial.coeff_add, Polynomial.coeff_mul_X_pow', coeff_polyOf, coeff_polyOf, coeff_polyOf,
    BitVec.getLsbD_append]
  by_cases hk : k < n
  · simp [hk, Nat.not_le.2 hk]
  · simp [hk, Nat.not_lt.1 hk]

/-- A byte entered at bits 15 to 8 (R100). -/
theorem polyOf_enteredByte (b : Byte) : polyOf (b.zeroExtend 16 <<< 8) = polyOf b * X ^ 8 := by
  have happend : b.zeroExtend 16 <<< 8 = b ++ 0#8 := by
    apply BitVec.eq_of_toNat_eq
    have := b.isLt
    simp only [toNat_append_add, BitVec.toNat_shiftLeft, BitVec.zeroExtend, BitVec.toNat_setWidth, Nat.shiftLeft_eq,
      BitVec.toNat_ofNat]
    omega
  rw [happend, polyOf_append, polyOf_zero, add_zero]

theorem polyOf_high_low (v : Half) : polyOf v = polyOf (highByte v) * X ^ 8 + polyOf (lowByte v) := by
  rw [← polyOf_append]
  exact congrArg polyOf (concatBytes_high_low v).symm

/-- A shift by one multiplies by x, once the bit shifted out is counted. -/
theorem polyOf_shiftLeft_one (v : Half) : polyOf (.ofBool v.msb) * X ^ 16 + polyOf (v <<< 1) = polyOf v * X := by
  have happend : BitVec.ofBool v.msb ++ v <<< 1 = v ++ 0#1 := by
    apply BitVec.eq_of_toNat_eq
    have := v.isLt
    simp only [toNat_append_add, BitVec.toNat_shiftLeft, BitVec.toNat_ofBool, BitVec.toNat_ofNat, Nat.shiftLeft_eq]
    cases hm : v.msb with
    | true =>
      have := BitVec.msb_eq_true_iff_two_mul_ge.1 hm
      rw [Bool.toNat_true]
      omega
    | false =>
      have := BitVec.msb_eq_false_iff_two_mul_lt.1 hm
      rw [Bool.toNat_false]
      omega
  calc
    _ = polyOf (BitVec.ofBool v.msb ++ v <<< 1) := (polyOf_append ..).symm
    _ = polyOf (v ++ 0#1) := congrArg polyOf happend
    _ = polyOf v * X := by rw [polyOf_append, polyOf_zero, add_zero, pow_one]

/-! ### The generator -/

theorem polyOf_twoPow {n k : Nat} (hk : k < n) : polyOf (BitVec.twoPow n k) = X ^ k := by
  ext i
  rw [coeff_polyOf, Polynomial.coeff_X_pow, BitVec.getLsbD_twoPow]
  by_cases h : i = k
  · simp [h, hk]
  · simp [h, Ne.symm h]

/-- The bits of 0x1021 are the terms of the generator below x^16. -/
theorem crcGenerator_eq : crcGenerator = X ^ 16 + polyOf (0x1021 : Half) := by
  have hbits : (0x1021 : Half) = BitVec.twoPow 16 12 ^^^ BitVec.twoPow 16 5 ^^^ BitVec.twoPow 16 0 := by decide
  rw [hbits, polyOf_xor, polyOf_xor, polyOf_twoPow (by decide), polyOf_twoPow (by decide), polyOf_twoPow (by decide),
    crcGenerator]
  ring

theorem crcGenerator_monic : crcGenerator.Monic := by
  rw [crcGenerator_eq]
  exact Polynomial.monic_X_pow_add (degree_polyOf_lt _)

theorem degree_polyOf_lt_crcGenerator (v : Half) : (polyOf v).degree < crcGenerator.degree := by
  have hdeg : crcGenerator.degree = (16 : ℕ) := by
    rw [crcGenerator_eq, Polynomial.degree_add_eq_left_of_degree_lt] <;> rw [Polynomial.degree_X_pow]
    exact degree_polyOf_lt _
  rw [hdeg]
  exact degree_polyOf_lt v

/-! ### The loop -/

/-- One pass multiplies by x and takes away the generator where a bit was shifted out. -/
theorem polyOf_crcShift_add_multiple (v : Half) : ∃ q, polyOf (crcShift v) + crcGenerator * q = polyOf v * X := by
  rw [← polyOf_shiftLeft_one, crcShift]
  cases v.msb with
  | false => exact ⟨0, by simp⟩
  | true =>
    have htwice := CharTwo.add_self_eq_zero (polyOf (0x1021 : Half))
    have hbit : polyOf (BitVec.ofBool true) = 1 := polyOf_twoPow (n := 1) (k := 0) (by decide)
    refine ⟨1, ?_⟩
    rw [if_pos rfl, polyOf_xor, crcGenerator_eq, hbit]
    linear_combination htwice

theorem polyOf_crcShifts_add_multiple (n : Nat) (v : Half) :
    ∃ q, polyOf (crcShifts n v) + crcGenerator * q = polyOf v * X ^ n := by
  induction n generalizing v with
  | zero => exact ⟨0, by simp [crcShifts]⟩
  | succ n ih =>
    obtain ⟨q, hq⟩ := polyOf_crcShift_add_multiple v
    obtain ⟨r, hr⟩ := ih (crcShift v)
    refine ⟨r + q * X ^ n, ?_⟩
    rw [crcShifts]
    linear_combination hr + hq * X ^ n

theorem polyOf_crcShifts (n : Nat) (v : Half) : polyOf (crcShifts n v) = (polyOf v * X ^ n) %ₘ crcGenerator := by
  obtain ⟨q, hq⟩ := polyOf_crcShifts_add_multiple n v
  exact (Polynomial.div_modByMonic_unique q _ crcGenerator_monic ⟨hq, degree_polyOf_lt_crcGenerator _⟩).2.symm

theorem polyOf_crc16Upd (c : Half) (b : Byte) :
    polyOf (crc16Upd c b) = ((polyOf c + polyOf b * X ^ 8) * X ^ 8) %ₘ crcGenerator := by
  rw [crc16Upd, polyOf_crcShifts, polyOf_xor, polyOf_enteredByte]

theorem crcShifts_eq_iterate (n : Nat) (v : Half) : crcShifts n v = crcShift^[n] v := by
  induction n generalizing v with
  | zero => rfl
  | succ n ih => exact ih (crcShift v)

theorem crcShift_of_bit15 (v : Half) :
    crcShift v = if v.getLsbD 15 = true then (v <<< 1) ^^^ 0x1021 else v <<< 1 := by
  rw [crcShift, BitVec.msb_eq_getLsbD_last]

/-- Settles O14: eight passes are eight iterations of one. -/
theorem crcUpdateIsTheBitSerialLoop : Obligations.CrcUpdateIsTheBitSerialLoop := by
  intro c b
  rw [crc16Upd, crcShifts_eq_iterate, funext crcShift_of_bit15]

/-! ### Linearity -/

theorem crcShifts_xor (n : Nat) (u v : Half) : crcShifts n (u ^^^ v) = crcShifts n u ^^^ crcShifts n v := by
  induction n generalizing u v with
  | zero => rfl
  | succ n ih => rw [crcShifts, crcShift_xor, ih]; rfl

theorem crc16Upd_xor (c₁ c₂ : Half) (b₁ b₂ : Byte) :
    crc16Upd (c₁ ^^^ c₂) (b₁ ^^^ b₂) = crc16Upd c₁ b₁ ^^^ crc16Upd c₂ b₂ := by
  have hbyte : (b₁ ^^^ b₂).zeroExtend 16 <<< 8 = b₁.zeroExtend 16 <<< 8 ^^^ b₂.zeroExtend 16 <<< 8 := by
    rw [BitVec.zeroExtend, BitVec.setWidth_xor, BitVec.shiftLeft_xor_distrib]
  rw [crc16Upd, crc16Upd, crc16Upd, ← crcShifts_xor, hbyte]
  congr 1
  ac_rfl

/-- Settles O15: each pass multiplies by x modulo the generator, and each pass is linear. -/
theorem crcUpdateIsPolynomialDivision : Obligations.CrcUpdateIsPolynomialDivision :=
  ⟨polyOf_crc16Upd, crc16Upd_xor⟩

/-! ### An appended CRC (R107) -/

/-- The high byte of the running CRC cancels itself, and the low byte, moved up, is the next CRC: the remainder of a
polynomial below x^16 is that polynomial. -/
theorem polyOf_crc16Upd_highByte (c : Half) : polyOf (crc16Upd c (highByte c)) = polyOf (lowByte c) * X ^ 8 := by
  have hcancel : polyOf c + polyOf (highByte c) * X ^ 8 = polyOf (lowByte c) := by
    have htwice := CharTwo.add_self_eq_zero (polyOf (highByte c) * X ^ 8)
    rw [polyOf_high_low c]
    linear_combination htwice
  rw [polyOf_crc16Upd, hcancel, ← polyOf_enteredByte]
  exact (Polynomial.modByMonic_eq_self_iff crcGenerator_monic).2 (degree_polyOf_lt_crcGenerator _)

theorem crc16Upd_high_low (c : Half) : crc16Upd (crc16Upd c (highByte c)) (lowByte c) = 0 := by
  apply polyOf_injective
  rw [polyOf_crc16Upd, polyOf_crc16Upd_highByte, CharTwo.add_self_eq_zero, zero_mul, Polynomial.zero_modByMonic]
  exact (polyOf_zero 16).symm

theorem crc16Compute_append_crc (s : List Byte) :
    crc16Compute (s ++ [highByte (crc16Compute s), lowByte (crc16Compute s)]) = 0 :=
  (crc16Fold_append 0 s _).trans (crc16Upd_high_low _)

theorem crc16Upd_zero : crc16Upd 0x0000 0x00 = 0x0000 := by decide

theorem crc16Compute_checkString :
    crc16Compute [0x31, 0x32, 0x33, 0x34, 0x35, 0x36, 0x37, 0x38, 0x39] = 0x31C3 := by decide +kernel

/-- Settles O17: a zero byte leaves the CRC 0x0000 as it is, and a CRC's two bytes cancel it high byte first. -/
theorem crcResidues : Obligations.CrcResidues :=
  ⟨fun s => congrArg (crc16Fold · s) crc16Upd_zero, crc16Compute_append_crc, by decide +kernel,
    by decide +kernel, crc16Compute_checkString, by decide +kernel⟩

/-- Settles O16: the CRC is a left fold. -/
theorem crcComputeFoldsFromZero : Obligations.CrcComputeFoldsFromZero := ⟨crc16Compute_nil, crc16Compute_concat⟩

end Sys2Proof.Machine
end

section
/-! The three CRC operations (40_crc.md R103 to R106) and their words. -/

namespace Sys2Proof.Machine

variable (c : Half) (b : Byte) (s : State)

theorem exec_crcInit :
    exec .crcInit s = .next { s with crcAcc := 0x0000, outputs := s.outputs ++ [.crcOut 0x0000] } := rfl

theorem exec_crcFeed : exec (.crcFeed b) s =
    .next { s with crcAcc := crc16Upd s.crcAcc b, outputs := s.outputs ++ [.crcOut (crc16Upd s.crcAcc b)] } := rfl

theorem exec_crcUpdate :
    exec (.crcUpdate c b) s = .next { s with outputs := s.outputs ++ [.crcOut (crc16Upd c b)] } := rfl

end Sys2Proof.Machine

namespace Sys2Proof

open Machine Stated
open Laws.ReservedBits (layout)

variable {op : Op} {i : Instr}

/-- A word of a row is refused for a reserved bit that is not 0, and is otherwise the row's operation (30_encoding.md
R79). -/
theorem TableRow.decode_by_reserved (hr : TableRow op i) :
    (op.word.toNat / 2 ^ (layout i).2 % 2 ^ (28 - (layout i).2) ≠ 0 → decode op = .error .reservedBits) ∧
    (op.word.toNat / 2 ^ (layout i).2 % 2 ^ (28 - (layout i).2) = 0 → decode op = .ok i) := by
  rw [← field_eq_zero_iff, Ne, ← field_eq_zero_iff, hr.decode_eq]
  exact ⟨fun h => ifReservedZero_of_ne h i, fun h => ifReservedZero_of_zero h i⟩

/-- With the opcode of `CRC_INIT` every other bit is reserved (30_encoding.md R77). -/
theorem crcInit_reserved_eq_zero_iff (h : opNibble op = 0x3) :
    op.word.toNat / 2 ^ 0 % 2 ^ 28 = 0 ↔ op.word = 0x30000000 := by
  have := op.word.isLt
  have hword : (0x30000000 : OpWord).toNat = 0x30000000 := rfl
  rw [opNibble] at h
  rw [← BitVec.toNat_inj, hword]
  omega

/-- Settles O18: the operation emits the update, and its word has the reserved bits 27 to 24. -/
theorem crcUpdateResult : Obligations.CrcUpdateResult :=
  ⟨exec_crcUpdate, fun _ h => (TableRow.crcUpdate h).decode_by_reserved, crc16Upd_zero, by decide, by decide⟩

/-- Settles O19: the one word without reserved bits, and the second zero as the first. -/
theorem crcInitResult : Obligations.CrcInitResult := by
  refine ⟨exec_crcInit, fun op h => ?_, fun s => ?_⟩
  · rw [Ne, ← crcInit_reserved_eq_zero_iff h]
    exact (TableRow.crcInit h).decode_by_reserved
  · rw [runInstrs_cons (exec_crcInit s), runInstrs_cons (exec_crcInit _), runInstrs_nil, List.append_assoc]
    rfl

/-- Settles O20: the nine-byte example is the expansion of `CRC_COMPUTE`. -/
theorem crcFeedResult : Obligations.CrcFeedResult := by
  refine ⟨exec_crcFeed, fun _ h => (TableRow.crcFeed h).decode_by_reserved, crc16Upd_zero, fun s => ?_⟩
  obtain ⟨outs, hrun, -, -⟩ :=
    crcComputeExpansion [0x31, 0x32, 0x33, 0x34, 0x35, 0x36, 0x37, 0x38, 0x39] s
  rw [crc16Compute_checkString] at hrun
  exact ⟨_, hrun, rfl⟩

/-- Settles O21, operation by operation: the two states enter only by the one accumulator. -/
theorem crcOperationsAreIsolated : Obligations.CrcOperationsAreIsolated := by
  rintro i (rfl | ⟨b, rfl⟩ | ⟨c, b, rfl⟩) s u h
  · exact ⟨0, 0, exec_crcInit s, exec_crcInit u⟩
  · exact ⟨_, _, exec_crcFeed b s, h ▸ exec_crcFeed b u⟩
  · exact ⟨s.crcAcc, _, exec_crcUpdate c b s, h ▸ exec_crcUpdate c b u⟩

end Sys2Proof
end

section
/-! `RX_BYTE` answers what its rules say (41_rx_framer.md R122 to R138): the rules of `RxRule` are those of the framer in
both directions. -/

namespace Sys2Proof.Machine

variable {b : Byte} {s t : State}

theorem rxReadLenHigh_badLength (h : s.params.rxCap.val < (declaredLength b s.rxLen).toNat) :
    rxReadLenHigh b s = raiseError .badLength s :=
  if_pos h

theorem rxReadLenHigh_emptyPayload (h : declaredLength b s.rxLen = 0) : rxReadLenHigh b s = emit rxAwaiting
    { s with rxLen := 0, rxCrc := crc16Upd s.rxCrc b, rxCrcPhase := false, rxState := .readCrc } := by
  rcases rxReadLenHigh_cases b s with ⟨hlt, -⟩ | ⟨-, -, e⟩ | ⟨-, hpos, -⟩
  · rw [h] at hlt; exact absurd hlt (Nat.not_lt_zero _)
  · exact e
  · rw [h] at hpos; exact absurd hpos (Nat.lt_irrefl 0)

theorem rxReadLenHigh_header (hfit : (declaredLength b s.rxLen).toNat ≤ s.params.rxCap.val)
    (hpos : 0 < (declaredLength b s.rxLen).toNat) : rxReadLenHigh b s = emit rxAwaiting
    { s with rxLen := declaredLength b s.rxLen, rxCrc := crc16Upd s.rxCrc b, rxState := .readData } := by
  rcases rxReadLenHigh_cases b s with ⟨hlt, -⟩ | ⟨-, h0, -⟩ | ⟨-, -, e⟩
  · exact absurd hfit (Nat.not_le.2 hlt)
  · rw [h0] at hpos; exact absurd hpos (Nat.lt_irrefl 0)
  · exact e

theorem rxReadData_last (hi : s.rxIdx.toNat < s.params.rxCap.val) (hl : s.rxIdx + 1 = s.rxLen) :
    rxReadData b s = .next (emit rxAwaiting { payloadStored b s with rxState := .readCrc, rxCrcPhase := false }) := by
  simp only [rxReadData, bufWrite_ok hi, if_pos hl, payloadStored]

theorem rxReadData_next (hi : s.rxIdx.toNat < s.params.rxCap.val) (hl : s.rxIdx + 1 ≠ s.rxLen) :
    rxReadData b s = .next (emit rxAwaiting (payloadStored b s)) := by
  simp only [rxReadData, bufWrite_ok hi, if_neg hl, payloadStored]

theorem rxReadCrc_low (hp : s.rxCrcPhase = false) :
    rxReadCrc b s = .next (emit rxAwaiting { s with rxCrcLo := some b, rxCrcPhase := true }) :=
  if_pos hp

theorem rxReadCrc_high {lo : Byte} (hp : s.rxCrcPhase = true) (hlo : s.rxCrcLo = some lo) : rxReadCrc b s =
    if receivedCrc b lo = s.rxCrc then .next (emit rxAwaiting { s with rxCrcPhase := false, rxState := .readStop1 })
    else .next (raiseError .crcMismatch s) := by
  simp only [rxReadCrc, hp, hlo, Bool.true_eq_false, if_false]

/-- The converse of `execRxByte_rule`: a rule whose condition holds gives the step. -/
theorem RxRule.exec_eq (hr : RxRule b s t) : exec (.rxByte b) s = .next t := by
  cases hr with
  | startMarker h hb => exact (execRxByte_awaitStart1 h).trans (congrArg _ (if_pos hb))
  | ignored h hb => exact (execRxByte_awaitStart1 h).trans (congrArg _ (if_neg hb))
  | secondMarker h hb => exact (execRxByte_awaitStart2 h).trans (congrArg _ (if_pos hb))
  | resync h hb => exact (execRxByte_awaitStart2 h).trans (congrArg _ (if_neg hb))
  | frameId h => exact execRxByte_readId h
  | lenLow h => exact execRxByte_readLenLow h
  | badLength h hl => exact (execRxByte_readLenHigh h).trans (congrArg _ (rxReadLenHigh_badLength hl))
  | emptyPayload h hl => exact (execRxByte_readLenHigh h).trans (congrArg _ (rxReadLenHigh_emptyPayload hl))
  | header h hl h0 => exact (execRxByte_readLenHigh h).trans (congrArg _ (rxReadLenHigh_header hl h0))
  | lastPayloadByte h hi hl => exact (execRxByte_readData h).trans (rxReadData_last hi hl)
  | payloadByte h hi hl => exact (execRxByte_readData h).trans (rxReadData_next hi hl)
  | crcLow h hp => exact (execRxByte_readCrc h).trans (rxReadCrc_low hp)
  | crcMatch h hp lo hlo hc => exact ((execRxByte_readCrc h).trans (rxReadCrc_high hp hlo)).trans (if_pos hc)
  | crcMismatch h hp lo hlo hc => exact ((execRxByte_readCrc h).trans (rxReadCrc_high hp hlo)).trans (if_neg hc)
  | stopMarker h hb => exact (execRxByte_readStop1 h).trans (congrArg _ (if_pos hb))
  | badStop1 h hb => exact (execRxByte_readStop1 h).trans (congrArg _ (if_neg hb))
  | frameComplete h hb id hid payload hp => exact (execRxByte_readStop2 h).trans (rxReadStop2_complete hb hid hp)
  | badStop2 h hb => exact (execRxByte_readStop2 h).trans (if_neg hb)

/-- Settles O25, by R122 to R125. -/
theorem rxStartMarkers : Obligations.RxStartMarkers := fun _ _ =>
  ⟨fun h hb => (RxRule.startMarker h hb).exec_eq, fun h hb => (RxRule.ignored h hb).exec_eq,
    fun h hb => (RxRule.secondMarker h hb).exec_eq, fun h hb => (RxRule.resync h hb).exec_eq⟩

/-- Settles O29, by R135, R136 and R138. -/
theorem rxStopMarkers : Obligations.RxStopMarkers := fun _ _ =>
  ⟨fun h hb => (RxRule.stopMarker h hb).exec_eq, fun h hb => (RxRule.badStop1 h hb).exec_eq,
    fun h hb => (RxRule.badStop2 h hb).exec_eq⟩

/-! ### The header (R126 to R130) -/

theorem declaredLength_toNat (b : Byte) (n : Half) : (declaredLength b n).toNat = b.toNat * 256 + n.toNat % 256 := by
  rw [declaredLength, concatBytes_toNat, lowByte_toNat]

/-- Settles O26: the declared length, as a number, is the two bytes high byte first. -/
theorem rxHeader : Obligations.RxHeader := by
  intro b s
  refine ⟨fun h => (RxRule.frameId h).exec_eq, fun h => ?lenLow, fun L hL h => ?lenHigh⟩
  case lenLow =>
    rw [BitVec.ofNat_toNat]
    exact (RxRule.lenLow h).exec_eq
  case lenHigh =>
    rw [← declaredLength_toNat] at hL
    subst hL
    refine ⟨fun h0 hl => ?_, fun h0 => ?_, fun hl => (RxRule.badLength h hl).exec_eq⟩
    · rw [BitVec.ofNat_toNat, BitVec.setWidth_eq]
      exact (RxRule.header h hl h0).exec_eq
    · exact (RxRule.emptyPayload h (BitVec.eq_of_toNat_eq h0)).exec_eq

/-! ### The payload and its CRC (R131 to R134) -/

theorem ofNat_toNat_succ (v : Half) : BitVec.ofNat 16 (v.toNat + 1) = v + 1 := by
  rw [BitVec.ofNat_add, BitVec.ofNat_toNat, BitVec.setWidth_eq]
  rfl

theorem rxIdx_succ_eq_rxLen_iff (hi : s.rxIdx.toNat < s.params.rxCap.val) :
    s.rxIdx + 1 = s.rxLen ↔ s.rxIdx.toNat + 1 = s.rxLen.toNat := by
  rw [← BitVec.toNat_inj, rxIdx_succ_toNat hi]

/-- Settles O27: the buffer is the old one with one cell written. -/
theorem rxPayloadByte : Obligations.RxPayloadByte := by
  intro b s h hi
  rw [ofNat_toNat_succ, Ne, ← rxIdx_succ_eq_rxLen_iff hi]
  exact ⟨s.rxBuf.write s.rxIdx.toNat b, Memory.read_write _ _ b,
    fun hl => (RxRule.payloadByte h hi hl).exec_eq, fun hl => (RxRule.lastPayloadByte h hi hl).exec_eq⟩

theorem receivedCrc_eq_iff {lo : Byte} {v : Half} : receivedCrc b lo = v ↔ b.toNat * 256 + lo.toNat = v.toNat := by
  rw [← BitVec.toNat_inj, receivedCrc, concatBytes_toNat]

/-- Settles O28: two u16 are equal exactly when their numbers are. -/
theorem rxCrcCheck : Obligations.RxCrcCheck := by
  refine fun b s h => ⟨fun hp => (RxRule.crcLow h hp).exec_eq, fun lo hp hlo => ?_⟩
  rw [Ne, ← receivedCrc_eq_iff]
  exact ⟨fun hc => (RxRule.crcMatch h hp lo hlo hc).exec_eq, fun hc => (RxRule.crcMismatch h hp lo hlo hc).exec_eq⟩

/-! ### The completed frame (R137) -/

theorem bufReadFrom_of_bufferHolds {n : Nat} {payload : List Byte} (hb : Stated.bufferHolds s payload)
    (hn : n = payload.length) : bufReadFrom s.params s.rxBuf 0 n = .ok payload := by
  obtain ⟨hfit, hcell⟩ := hb
  refine bufReadFrom_eq_ok.2 ⟨hn.symm, fun k hk => ?_⟩
  rw [Nat.zero_add]
  exact ⟨Nat.lt_of_lt_of_le hk hfit, hcell k hk⟩

/-- Settles O30: the payload is what the buffer holds, and the dispatch follows the registry (42_dispatch.md R162). -/
theorem rxFrameCompletes : Obligations.RxFrameCompletes := by
  intro b id payload s h hb hid hlen hbuf
  have hdone := (RxRule.frameComplete h hb id hid payload (bufReadFrom_of_bufferHolds hbuf hlen)).exec_eq
  refine ⟨fun tag htag => ?_, fun htag => ?_⟩
  · rwa [dispatchOf_eq_some.2 ⟨tag, htag, rfl⟩] at hdone
  · rwa [dispatchOf_eq_none.2 htag] at hdone

/-! ### What every byte leaves unchanged (R120) -/

theorem RxRule.lastRefusal_eq (hr : RxRule b s t) : t.lastRefusal = s.lastRefusal := by
  cases hr <;> rfl

/-- Settles O24: field by field, and the output that of the rule. -/
theorem rxByteScope : Obligations.RxByteScope := by
  refine ⟨fun op h => (TableRow.rxByte h).decode_by_reserved, fun b s t h => ?_⟩
  have hr : RxRule b s t := execRxByte_rule h
  have hout := hr.sameOutsideFramer
  obtain ⟨o, ho, he⟩ := hr.output
  obtain ⟨c, f, d, rfl, -, -⟩ := ho.parts
  exact ⟨hr.tmoElapsed_eq, hr.params_eq, hout.timeoutMs, hout.reg, hout.crcAcc, hr.refused_eq, hr.lastRefusal_eq,
    exec_ops h, c, f, d, he⟩

end Sys2Proof.Machine
end

section
/-! The running CRC is that of the bytes of the frame received so far (41_rx_framer.md R143). -/

namespace Sys2Proof.Machine

open Stated (sameFramer)

variable {b : Byte} {i : Instr} {s t : State}

/-! ### What R143 says in each framer state -/

theorem crcCoversFrame_beforeId {st : DecoderState} (hs : s.rxState = st) (hst : st.pastId = false) :
    CrcCoversFrame s ↔ s.rxCrc = crc16Compute [] := by
  cases st with
  | awaitStart1 | awaitStart2 | readId => simp [CrcCoversFrame, foldedSoFar, hs]
  | _ => cases hst

theorem crcCoversFrame_readLenLow (h : s.rxState = .readLenLow) :
    CrcCoversFrame s ↔ ∃ id, s.rxId = some id ∧ s.rxCrc = crc16Compute [id] := by
  simp [CrcCoversFrame, foldedSoFar, h]

theorem crcCoversFrame_readLenHigh (h : s.rxState = .readLenHigh) :
    CrcCoversFrame s ↔ ∃ id, s.rxId = some id ∧ s.rxCrc = crc16Compute [id, lowByte s.rxLen] := by
  simp [CrcCoversFrame, foldedSoFar, h]

/-- The running CRC is that of the header and of what the buffer holds. -/
def PayloadFolded (s : State) : Prop :=
  ∃ id payload, s.rxId = some id ∧ bufReadFrom s.params s.rxBuf 0 s.rxIdx.toNat = .ok payload ∧
    s.rxCrc = crc16Compute (coveredBytes id s.rxLen payload)

theorem crcCoversFrame_pastHeader {st : DecoderState} (hs : s.rxState = st) (hst : st.pastHeader = true) :
    CrcCoversFrame s ↔ PayloadFolded s := by
  cases st with
  | readData | readCrc | readStop1 | readStop2 =>
    cases hid : s.rxId <;> cases hp : bufReadFrom s.params s.rxBuf 0 s.rxIdx.toNat <;>
      simp [CrcCoversFrame, PayloadFolded, foldedSoFar, hs, hid, hp]
  | _ => cases hst

/-! ### One more byte -/

theorem crc16Upd_eq_compute_concat {c : Half} {bytes : List Byte} (h : c = crc16Compute bytes) (b : Byte) :
    crc16Upd c b = crc16Compute (bytes ++ [b]) := by
  rw [crc16Compute_concat, h]

/-- R128, R129: the length's high byte ends the header, and no payload byte is stored yet. -/
theorem CrcCoversFrame.headerEnds (h : CrcCoversFrame s) (hs : s.rxState = .readLenHigh) (hidx : s.rxIdx = 0) :
    PayloadFolded { s with rxLen := declaredLength b s.rxLen, rxCrc := crc16Upd s.rxCrc b } := by
  obtain ⟨id, hid, hc⟩ := (crcCoversFrame_readLenHigh hs).1 h
  refine ⟨id, [], hid, by rw [hidx]; rfl, ?_⟩
  rw [coveredBytes_declaredLength]
  exact crc16Upd_eq_compute_concat hc b

/-- R131. -/
theorem PayloadFolded.store (h : PayloadFolded s) (hi : s.rxIdx.toNat < s.params.rxCap.val) (b : Byte) :
    PayloadFolded (payloadStored b s) := by
  obtain ⟨id, payload, hid, hp, hc⟩ := h
  refine ⟨id, payload ++ [b], hid, ?_, ?_⟩
  · rw [← bufReadFrom_write_next b hi hp, ← rxIdx_succ_toNat hi]
    rfl
  · rw [coveredBytes_concat]
    exact crc16Upd_eq_compute_concat hc b

/-! ### Each operation keeps it -/

/-- One case per rule R122 to R138: a rule folds its byte and appends it to the bytes received of the frame, or does
neither, or leaves no frame. -/
theorem RxRule.keeps_crcCoversFrame (hr : RxRule b s t) (hi : Inv s) (h : CrcCoversFrame s) : CrcCoversFrame t := by
  cases hr with
  | resync | frameComplete | badLength | crcMismatch | badStop1 | badStop2 | startMarker =>
    exact (crcCoversFrame_beforeId rfl rfl).2 rfl
  | ignored => exact h
  | secondMarker hs =>
    have hc := (crcCoversFrame_beforeId hs rfl).1 h
    exact (crcCoversFrame_beforeId rfl rfl).2 hc
  | frameId hs =>
    have hc := (crcCoversFrame_beforeId hs rfl).1 h
    exact (crcCoversFrame_readLenLow rfl).2 ⟨b, rfl, crc16Upd_eq_compute_concat hc b⟩
  | lenLow hs =>
    obtain ⟨id, hid, hc⟩ := (crcCoversFrame_readLenLow hs).1 h
    refine (crcCoversFrame_readLenHigh rfl).2 ⟨id, hid, ?_⟩
    rw [emit_rxLen, lowByte_zeroExtend]
    exact crc16Upd_eq_compute_concat hc b
  | emptyPayload hs hl =>
    have hp := h.headerEnds (b := b) hs (hi.idxBeforeData (by rw [hs]; rfl))
    rw [hl] at hp
    exact (crcCoversFrame_pastHeader rfl rfl).2 hp
  | header hs =>
    have hp := h.headerEnds (b := b) hs (hi.idxBeforeData (by rw [hs]; rfl))
    exact (crcCoversFrame_pastHeader rfl rfl).2 hp
  | lastPayloadByte hs hcap =>
    have hp := ((crcCoversFrame_pastHeader hs rfl).1 h).store hcap b
    exact (crcCoversFrame_pastHeader rfl rfl).2 hp
  | payloadByte hs hcap =>
    have hp := ((crcCoversFrame_pastHeader hs rfl).1 h).store hcap b
    exact Iff.mpr (crcCoversFrame_pastHeader hs rfl) hp
  | crcLow hs =>
    have hp := (crcCoversFrame_pastHeader hs rfl).1 h
    exact Iff.mpr (crcCoversFrame_pastHeader hs rfl) hp
  | crcMatch hs | stopMarker hs =>
    have hp := (crcCoversFrame_pastHeader hs rfl).1 h
    exact (crcCoversFrame_pastHeader rfl rfl).2 hp

theorem execTick_keeps_crcCoversFrame (h : CrcCoversFrame s) (ht : execTick s = .next t) : CrcCoversFrame t := by
  rcases execTick_cases s with ⟨-, e⟩ | ⟨-, -, e⟩ | ⟨-, -, e⟩ <;> rw [e] at ht <;> cases ht
  · exact h
  · exact h
  · exact (crcCoversFrame_beforeId rfl rfl).2 rfl

theorem CrcCoversFrame.of_sameFramer (h : CrcCoversFrame s) (hf : sameFramer s t) (hp : t.params = s.params) :
    CrcCoversFrame t := by
  obtain ⟨hstate, -, hid, hlen, hidx, hcrc, -, hbuf, -⟩ := hf
  simpa only [CrcCoversFrame, foldedSoFar, hstate, hid, hlen, hidx, hcrc, hbuf, hp] using h

theorem exec_keeps_crcCoversFrame (hi : Inv s) (h : CrcCoversFrame s) (ht : exec i s = .next t) :
    CrcCoversFrame t := by
  cases i with
  | rxByte b => exact (execRxByte_rule ht).keeps_crcCoversFrame hi h
  | tick => exact execTick_keeps_crcCoversFrame h ht
  | reset => cases ht; exact (crcCoversFrame_beforeId rfl rfl).2 rfl
  | crcInit | crcFeed | crcUpdate | encode | regSet | cfgTimeout =>
    exact h.of_sameFramer (exec_sameFramer ht nofun nofun nofun) (exec_params ht)

/-- Settles O53: an idle step and a refused word leave the framer as it is, and every operation keeps what R143 says;
at power-on no byte has been received. -/
theorem runningCrcCoversTheFrame : Obligations.RunningCrcCoversTheFrame := by
  refine ⟨fun s t hi hc h => ?_, fun p => (crcCoversFrame_beforeId rfl rfl).2 rfl⟩
  rcases step_cases h with ⟨-, rfl⟩ | ⟨op, rest, r, -, -, rfl⟩ | ⟨op, rest, i, -, -, he⟩
  · exact hc
  · exact hc
  · exact exec_keeps_crcCoversFrame (hi.withOps rest) hc he

end Sys2Proof.Machine
end

section
/-! `TICK` (41_rx_framer.md R139 to R142) and the ticks between bytes (R145). -/

namespace Sys2Proof

open Machine Stated
open Laws.ReservedBits (layout)

/-- With an opcode whose operation has no field every other bit is reserved (30_encoding.md R77). -/
theorem bareWord_reserved_eq_zero_iff {op : Op} {n : Nat} (h : opNibble op = n) :
    op.word.toNat / 2 ^ 0 % 2 ^ 28 = 0 ↔ op.word = BitVec.ofNat 32 (n * 2 ^ 28) := by
  have := op.word.isLt
  rw [opNibble] at h
  rw [← BitVec.toNat_inj, BitVec.toNat_ofNat]
  omega

theorem decode_tickWord {op : Op} (h : opNibble op = 0x2) :
    (op.word ≠ 0x20000000 → decode op = .error .reservedBits) ∧ (op.word = 0x20000000 → decode op = .ok .tick) := by
  have hword : op.word.toNat / 2 ^ 0 % 2 ^ 28 = 0 ↔ op.word = 0x20000000 := bareWord_reserved_eq_zero_iff h
  rw [Ne, ← hword]
  exact (TableRow.tick h).decode_by_reserved

end Sys2Proof

namespace Sys2Proof.Machine

open Stated (emitted)

variable {b : Byte} {i : Instr} {s t : State}

/-! ### One tick -/

theorem exec_tick_idle (hs : s.rxState = .awaitStart1) : exec .tick s = .next (emit rxAwaiting s) := if_pos hs

theorem exec_tick_counts (hs : s.rxState ≠ .awaitStart1) (hle : s.tmoElapsed.toNat + 1 ≤ s.timeoutMs.toNat) :
    exec .tick s = .next (emit rxAwaiting { s with tmoElapsed := s.tmoElapsed + 1 }) := by
  rcases execTick_cases s with ⟨h, -⟩ | ⟨-, -, e⟩ | ⟨-, hlt, -⟩
  · exact absurd h hs
  · exact e
  · exact absurd hle (Nat.not_le.2 hlt)

theorem exec_tick_fires (hs : s.rxState ≠ .awaitStart1) (hlt : s.timeoutMs.toNat < s.tmoElapsed.toNat + 1) :
    exec .tick s = .next (raiseError .timeout s) := by
  rcases execTick_cases s with ⟨h, -⟩ | ⟨-, hle, -⟩ | ⟨-, -, e⟩
  · exact absurd h hs
  · exact absurd hle (Nat.not_le.2 hlt)
  · exact e

/-- Settles O32, by R139 to R141. -/
theorem tickResult : Obligations.TickResult := by
  refine ⟨fun op h => decode_tickWord h, fun s => ⟨exec_tick_idle, fun hs hle => ?_, exec_tick_fires⟩⟩
  rw [ofNat_toNat_succ]
  exact exec_tick_counts hs hle

/-! ### Ticks that fire no timeout -/

theorem ticksOps_add (m n : Nat) : ticksOps (m + n) = ticksOps m ++ ticksOps n := List.replicate_add ..

theorem ticksOps_succ (k : Nat) : ticksOps (k + 1) = .tick :: ticksOps k := rfl

/-- After `k` such ticks: the count stands at `e`, and `k` times AwaitingMore has been emitted. -/
def afterTicks (k : Nat) (e : Half) (s : State) : State :=
  { s with tmoElapsed := e, outputs := s.outputs ++ List.replicate k rxAwaiting }

theorem afterTicks_zero (s : State) : afterTicks 0 s.tmoElapsed s = s := by
  simp [afterTicks]

/-- The tick before `k` others. -/
theorem afterTicks_emit (k : Nat) (e e' : Half) (s : State) :
    afterTicks k e (emit rxAwaiting { s with tmoElapsed := e' }) = afterTicks (k + 1) e s := by
  simp [afterTicks, emit, List.replicate_succ]

theorem runInstrs_ticks_idle (k : Nat) (hs : s.rxState = .awaitStart1) :
    runInstrs (ticksOps k) s = .next (afterTicks k s.tmoElapsed s) := by
  induction k generalizing s with
  | zero => rw [afterTicks_zero]; rfl
  | succ k ih =>
    rw [← afterTicks_emit k _ s.tmoElapsed]
    exact (runInstrs_cons (exec_tick_idle hs)).trans (ih hs)

theorem runInstrs_ticks_counting (k : Nat) (hs : s.rxState ≠ .awaitStart1)
    (hle : s.tmoElapsed.toNat + k ≤ s.timeoutMs.toNat) :
    runInstrs (ticksOps k) s = .next (afterTicks k (BitVec.ofNat 16 (s.tmoElapsed.toNat + k)) s) := by
  induction k generalizing s with
  | zero => rw [Nat.add_zero, BitVec.ofNat_toNat, BitVec.setWidth_eq, afterTicks_zero]; rfl
  | succ k ih =>
    have hle1 : s.tmoElapsed.toNat + 1 ≤ s.timeoutMs.toNat := by omega
    have hsucc : (s.tmoElapsed + 1).toNat = s.tmoElapsed.toNat + 1 := half_succ_toNat hle1 s.timeoutMs.isLt
    have hle' : (s.tmoElapsed + 1).toNat + k ≤ s.timeoutMs.toNat := by omega
    have hrest := ih (s := emit rxAwaiting { s with tmoElapsed := s.tmoElapsed + 1 }) hs hle'
    rw [afterTicks_emit, emit_tmoElapsed, hsucc, Nat.add_right_comm] at hrest
    exact (runInstrs_cons (exec_tick_counts hs hle1)).trans hrest

/-! ### A silence (R142) -/

/-- Settles O33: a longer silence is `timeout_ms` ticks that count, the one that fires, and the rest, which find the
framer idle. -/
theorem silenceYieldsOneTimeout : Obligations.SilenceYieldsOneTimeout := by
  intro s k hs h0
  have hcount (n : Nat) (hn : n ≤ s.timeoutMs.toNat) :
      runInstrs (ticksOps n) s = .next (afterTicks n (BitVec.ofNat 16 n) s) := by
    have h := runInstrs_ticks_counting n hs (by rw [h0]; simpa using hn)
    rw [h0] at h
    simpa using h
  refine ⟨hcount k, fun hlt => ?_⟩
  obtain ⟨m, rfl⟩ : ∃ m, k = s.timeoutMs.toNat + (m + 1) := ⟨k - s.timeoutMs.toNat - 1, by omega⟩
  have hfire := exec_tick_fires (s := afterTicks s.timeoutMs.toNat (BitVec.ofNat 16 s.timeoutMs.toNat) s) hs
    (by simp [afterTicks])
  rw [ticksOps_add, runInstrs_append (hcount _ le_rfl), ticksOps_succ, runInstrs_cons hfire,
    runInstrs_ticks_idle m (raiseError_rxState ..), Nat.add_sub_cancel_left, Nat.add_sub_cancel]
  rfl

/-! ### Ticks before a byte (R145) -/

/-- No rule reads the count or the outputs before it. -/
theorem RxRule.of_afterTicks (hr : RxRule b s t) (k : Nat) (e : Half) : ∃ o, emitted s t o ∧
    RxRule b (afterTicks k e s) { t with outputs := s.outputs ++ List.replicate k rxAwaiting ++ [o] } := by
  cases hr with
  | startMarker h hb => exact ⟨_, rfl, .startMarker h hb⟩
  | ignored h hb => exact ⟨_, rfl, .ignored h hb⟩
  | secondMarker h hb => exact ⟨_, rfl, .secondMarker h hb⟩
  | resync h hb => exact ⟨_, rfl, .resync h hb⟩
  | frameId h => exact ⟨_, rfl, .frameId h⟩
  | lenLow h => exact ⟨_, rfl, .lenLow h⟩
  | badLength h hl => exact ⟨_, rfl, .badLength h hl⟩
  | emptyPayload h hl => exact ⟨_, rfl, .emptyPayload h hl⟩
  | header h hl h0 => exact ⟨_, rfl, .header h hl h0⟩
  | lastPayloadByte h hi hl => exact ⟨_, rfl, .lastPayloadByte h hi hl⟩
  | payloadByte h hi hl => exact ⟨_, rfl, .payloadByte h hi hl⟩
  | crcLow h hp => exact ⟨_, rfl, .crcLow h hp⟩
  | crcMatch h hp lo hlo hc => exact ⟨_, rfl, .crcMatch h hp lo hlo hc⟩
  | crcMismatch h hp lo hlo hc => exact ⟨_, rfl, .crcMismatch h hp lo hlo hc⟩
  | stopMarker h hb => exact ⟨_, rfl, .stopMarker h hb⟩
  | badStop1 h hb => exact ⟨_, rfl, .badStop1 h hb⟩
  | frameComplete h hb id hid payload hp => exact ⟨_, rfl, .frameComplete (s := afterTicks k e s) h hb id hid payload hp⟩
  | badStop2 h hb => exact ⟨_, rfl, .badStop2 h hb⟩

/-- Settles O34: the ticks leave their count and their outputs, which the byte's rule does not read. -/
theorem ticksBetweenBytesDoNotMatter : Obligations.TicksBetweenBytesDoNotMatter := by
  intro s t k b hquiet h
  obtain ⟨e, hticks⟩ : ∃ e, runInstrs (ticksOps k) s = .next (afterTicks k e s) := by
    by_cases hs : s.rxState = .awaitStart1
    · exact ⟨_, runInstrs_ticks_idle k hs⟩
    · exact ⟨_, runInstrs_ticks_counting k hs (hquiet.resolve_left hs)⟩
  obtain ⟨o, ho, hr⟩ := (execRxByte_rule h).of_afterTicks k e
  refine ⟨o, ho, ?_⟩
  rw [runInstrs_append hticks, runInstrs_cons hr.exec_eq, runInstrs_nil]

end Sys2Proof.Machine
end

section
/-! After an error no part of the frame is left (41_rx_framer.md R144, 60_exceptions.md R211). -/

namespace Sys2Proof.Machine

open Stated (emitted)

variable {b : Byte} {i : Instr} {s t : State} {k : LinkError}

theorem errorOutput_ne_rxAwaiting (k : LinkError) : Output.rxOut k.code none none ≠ rxAwaiting := by
  cases k <;> exact nofun

/-- The rules that emit an error are those that raise it. -/
theorem RxRule.framerReset_of_error (hr : RxRule b s t) (he : emitted s t (.rxOut k.code none none)) :
    t = { framerReset s with outputs := t.outputs } := by
  cases hr with
  | badLength | crcMismatch | badStop1 | badStop2 => rfl
  | frameComplete => injection emitted_unique he rfl with _ hframe; cases hframe
  | _ => exact absurd (emitted_unique he rfl) (errorOutput_ne_rxAwaiting k)

theorem execTick_framerReset_of_error (h : execTick s = .next t) (he : emitted s t (.rxOut k.code none none)) :
    t = { framerReset s with outputs := t.outputs } := by
  rcases execTick_cases s with ⟨-, e⟩ | ⟨-, -, e⟩ | ⟨-, -, e⟩ <;> rw [e] at h <;> cases h
  · exact absurd (emitted_unique he rfl) (errorOutput_ne_rxAwaiting k)
  · exact absurd (emitted_unique he rfl) (errorOutput_ne_rxAwaiting k)
  · rfl

/-- Only `RX_BYTE` and `TICK` emit a receive result. -/
theorem exec_framerReset_of_error (h : exec i s = .next t) (he : emitted s t (.rxOut k.code none none)) :
    t = { framerReset s with outputs := t.outputs } := by
  rcases receiveResultsAndTheirSources.2 i s t _ _ _ h he with ⟨b, rfl, -⟩ | ⟨rfl, -⟩
  · exact (execRxByte_rule h).framerReset_of_error he
  · exact execTick_framerReset_of_error h he

/-- In the reset framer a first start marker writes no field but `rx_state`: the others already hold what it writes. -/
theorem exec_rxByte_framerReset (b : Byte) (s : State) : exec (.rxByte b) (framerReset s) = .next
    { framerReset s with
      rxState := if b = s.params.start1 then .awaitStart2 else .awaitStart1
      outputs := s.outputs ++ [rxAwaiting] } := by
  split
  · next hb => exact (RxRule.startMarker (s := framerReset s) rfl hb).exec_eq
  · next hb => exact (RxRule.ignored (s := framerReset s) rfl hb).exec_eq

/-- Settles O36: the state left is the reset of the framer, with the outputs there are by then. -/
theorem errorLeavesNoPartialFrame : Obligations.ErrorLeavesNoPartialFrame := by
  intro i s t k h he
  have ht := exec_framerReset_of_error h he
  obtain ⟨u, rfl⟩ : ∃ u, t = framerReset u := ⟨{ s with outputs := t.outputs }, ht⟩
  exact ⟨ht, exec_tick_idle rfl, fun b => exec_rxByte_framerReset b u⟩

end Sys2Proof.Machine
end

section
/-! The registry and the dispatch of a completed frame (42_dispatch.md R160 to R164). -/

namespace Sys2Proof.Machine

open Stated (emitted)

variable {b : Byte} {i : Instr} {s t : State}

/-! ### Registrations (R160) -/

theorem exec_regSet (id : Byte) (tag : Tag) (s : State) :
    exec (.regSet id tag) s = .next { s with reg := regWrite s.reg id tag, outputs := s.outputs ++ [.ack] } := rfl

theorem regValid_regWrite (r : Registry) (id : Byte) (tag : Tag) (x : Byte) :
    regValid (regWrite r id tag) x = true ↔ x = id ∨ regValid r x = true := by
  rw [regValid, regTag_regWrite]
  split
  · next hx => exact iff_of_true rfl (.inl hx)
  · next hx => exact (or_iff_right hx).symm

/-- Only `REG_SET` and `RESET` write the registry, and `REG_SET` adds to it. -/
theorem exec_keeps_regValid {id : Byte} (h : exec i s = .next t) (hreset : i ≠ .reset)
    (hv : regValid s.reg id = true) : regValid t.reg id = true := by
  by_cases hset : ∃ id' tag, i = .regSet id' tag
  · obtain ⟨id', tag, rfl⟩ := hset
    cases h
    exact (regValid_regWrite s.reg id' tag id).2 (.inr hv)
  · rwa [exec_reg h (fun id' tag e => hset ⟨id', tag, e⟩) hreset]

/-- Settles O38: the registry written is read back entry by entry, and no other operation but `RESET` writes it. -/
theorem regSetResult : Obligations.RegSetResult :=
  ⟨fun id tag s => ⟨regWrite s.reg id tag, exec_regSet id tag s, regTag_regWrite s.reg id tag⟩,
    fun _ h => (TableRow.regSet h).decode_by_reserved, fun _ _ _ _ => exec_keeps_regValid⟩

/-! ### Dispatches (R161, R162, R164) -/

/-- Of the outputs of `RX_BYTE` only that of R137 can carry a dispatch, and it is decided on the state before the
step. -/
theorem RxOutput.dispatch {o : Output} {c : RxCode} {f : Option Frame} {d : Dispatched} (ho : RxOutput b s o)
    (e : o = .rxOut c f (some d)) :
    b = s.params.stop2 ∧ s.rxState = .readStop2 ∧ c = .frameComplete ∧ f = some ⟨d.id, d.payload⟩ ∧
      s.rxId = some d.id ∧ regTag s.reg d.id = some d.tag := by
  cases ho with
  | frameComplete h hb id hid payload =>
    injection e with hc hf hd
    obtain ⟨tag, htag, rfl⟩ := dispatchOf_eq_some.1 hd
    exact ⟨hb, h, hc.symm, hf.symm, hid, htag⟩
  | _ => cases e

/-- Settles O39: a receive result is that of `RX_BYTE` or of `TICK`, and `TICK` dispatches nothing. -/
theorem onlyCompletedFramesAreDispatched : Obligations.OnlyCompletedFramesAreDispatched := by
  refine ⟨fun s id payload => ⟨fun tag h => dispatchOf_eq_some.2 ⟨tag, h, rfl⟩, dispatchOf_eq_none.2⟩,
    fun i s t c f d h he => ?_⟩
  rcases receiveResultsAndTheirSources.2 i s t c f _ h he with ⟨b, rfl, -⟩ | ⟨rfl, -⟩
  · obtain ⟨o, ho, he'⟩ := (execRxByte_rule h).output
    obtain ⟨rfl, hdispatch⟩ := ho.dispatch (emitted_unique he' he)
    exact ⟨rfl, hdispatch⟩
  · obtain ⟨o, he', ho⟩ := execTick_output h
    cases emitted_unique he he'
    rcases ho with e | e <;> cases e

end Sys2Proof.Machine
end

section
/-! `ENCODE` (43_tx_encoder.md R170 to R173): the frame it emits, byte for byte, and the check of the space. -/

namespace Sys2Proof.Machine

variable {p : Params} {id : Byte} {n : Half} {payload : List Byte} {space : Option Nat} {s : State}

/-! ### The frame's bytes (30_encoding.md R70) -/

theorem lowByte_eq_ofNat (v : Half) : lowByte v = BitVec.ofNat 8 v.toNat := by
  rw [← BitVec.toNat_inj, lowByte_toNat, BitVec.toNat_ofNat]

theorem highByte_eq_ofNat (v : Half) : highByte v = BitVec.ofNat 8 (v.toNat / 256) := by
  have := v.isLt
  rw [← BitVec.toNat_inj, highByte_toNat, BitVec.toNat_ofNat]
  omega

/-- The length's two bytes make the length (R71). -/
theorem declaredLength_highByte {m : Half} (h : lowByte m = lowByte n) : declaredLength (highByte n) m = n := by
  rw [declaredLength, h, concatBytes_high_low]

/-- What stands in a frame behind some of its payload: the `left` payload bytes, the CRC `c` and the stop markers. -/
def frameRest (p : Params) (c : Half) (left : List Byte) : List Byte := left ++ wireBytes c ++ [p.stop1, p.stop2]

theorem frameBytes_eq (p : Params) (id : Byte) (n : Half) (payload : List Byte) :
    frameBytes p id n payload = p.start1 :: p.start2 :: id :: lowByte n :: highByte n ::
      frameRest p (crc16Compute (coveredBytes id n payload)) payload := rfl

/-! ### The output -/

theorem wellFormed_encode_iff : (Instr.encode id n payload space).wellFormed p = true ↔
    payload.length = n.toNat ∧ space.isSome = p.txSpaceCheck := by
  simp [Instr.wellFormed, payloadFits, spacePresented]

theorem encodeOutput_of_spaceShort (h : spaceShort p n space = true) :
    encodeOutput p id n payload space = .txOut .insufficientSpace [] := if_pos h

theorem encodeOutput_of_not_spaceShort (h : ¬ spaceShort p n space = true) :
    encodeOutput p id n payload space = .txOut .success (frameBytes p id n payload) := if_neg h

theorem exec_encode_insufficientSpace (hw : (Instr.encode id n payload space).wellFormed s.params = true)
    (h : spaceShort s.params n space = true) : exec (.encode id n payload space) s =
      .next { s with outputs := s.outputs ++ [.txOut .insufficientSpace []] } := by
  rw [← encodeOutput_of_spaceShort h]
  exact execEncode_of_wellFormed hw

theorem exec_encode_success (hw : (Instr.encode id n payload space).wellFormed s.params = true)
    (h : ¬ spaceShort s.params n space = true) : exec (.encode id n payload space) s =
      .next { s with outputs := s.outputs ++ [.txOut .success (frameBytes s.params id n payload)] } := by
  rw [← encodeOutput_of_not_spaceShort h]
  exact execEncode_of_wellFormed hw

/-- R173. -/
theorem exec_encode_of_length_ne (h : payload.length ≠ n.toNat) : exec (.encode id n payload space) s =
    .next { s with refused := true, lastRefusal := some .payloadLengthMismatch } := by
  have hrefusal : encodeRefusal s.params n payload space = some .payloadLengthMismatch := if_pos h
  change execEncode id n payload space s = _
  rw [execEncode, afterEncode, hrefusal]
  rfl

/-! ### The statements -/

/-- Settles O40: the space check decides between the two outputs, and the frame is written out by `frameBytes_eq`. -/
theorem encodeResult : Obligations.EncodeResult := by
  refine ⟨fun id n payload space s hlen hspace lo hi c hlo hhi hc => ?operands,
    fun _ _ _ _ _ h => exec_encode_of_length_ne h, fun _ h => (TableRow.encode h).decode_by_reserved⟩
  have hw : (Instr.encode id n payload space).wellFormed s.params = true := wellFormed_encode_iff.2 ⟨hlen, hspace⟩
  refine ⟨fun k hk hlt => ?short, fun henough => ?enough⟩
  case short =>
    have hcheck : s.params.txSpaceCheck = true := by rw [← hspace, hk]; rfl
    exact exec_encode_insufficientSpace hw (spaceShort_eq_true.2 ⟨hcheck, k, hk, hlt⟩)
  case enough =>
    have hnot : ¬ spaceShort s.params n space = true := fun h => by
      obtain ⟨-, k, hk, hlt⟩ := spaceShort_eq_true.1 h
      exact absurd (henough k hk) (Nat.not_le.2 hlt)
    rw [← lowByte_eq_ofNat] at hlo
    rw [← highByte_eq_ofNat] at hhi
    subst hlo hhi hc
    rw [exec_encode_success hw hnot, frameBytes_eq, ← lowByte_eq_ofNat, ← highByte_eq_ofNat]
    simp [frameRest, wireBytes, coveredBytes]

/-- Settles O41: a short space fails the check before any byte, and otherwise the whole frame is emitted. -/
theorem spaceCheckIsAllOrNothing : Obligations.SpaceCheckIsAllOrNothing := by
  intro id n payload space s hw
  obtain ⟨hlen, -⟩ := wellFormed_encode_iff.1 hw
  have hshort : spaceShort s.params n space = true ↔
      s.params.txSpaceCheck = true ∧ ∃ k, space = some k ∧ k < 9 + payload.length := by
    rw [hlen]; exact spaceShort_eq_true
  by_cases h : spaceShort s.params n space = true
  · refine ⟨_, _, exec_encode_insufficientSpace hw h, fun _ => rfl, nofun, iff_of_true rfl (hshort.1 h),
      fun hoff => ?_⟩
    exact absurd (hshort.1 h).1 (by simp [hoff])
  · exact ⟨_, _, exec_encode_success hw h, nofun, fun _ => frameBytes_length s.params id n payload,
      iff_of_false nofun (hshort.not.1 h), fun _ => rfl⟩

/-! ### A frame its receiver has no room for (R172, 41_rx_framer.md R130) -/

/-- The header of a frame longer than `RX_CAP` is rejected at its last byte. -/
theorem runInstrs_overlongHeader (id : Byte) (hs : s.rxState = .awaitStart1) (hlong : s.params.rxCap.val < n.toNat) :
    runInstrs (rxStreamOps [s.params.start1, s.params.start2, id, lowByte n, highByte n]) s = .next
      { framerReset s with
        outputs := s.outputs ++ [rxAwaiting, rxAwaiting, rxAwaiting, rxAwaiting, .rxOut .badLength none none] } := by
  have hdeclared : declaredLength (highByte n) ((lowByte n).zeroExtend 16) = n :=
    declaredLength_highByte (lowByte_zeroExtend _)
  refine Eq.trans (runInstrs_cons (RxRule.exec_eq (.startMarker hs rfl))) ?_
  refine Eq.trans (runInstrs_cons (RxRule.exec_eq (.secondMarker rfl rfl))) ?_
  refine Eq.trans (runInstrs_cons (RxRule.exec_eq (.frameId rfl))) ?_
  refine Eq.trans (runInstrs_cons (RxRule.exec_eq (.lenLow rfl))) ?_
  refine Eq.trans (runInstrs_cons (RxRule.exec_eq (.badLength rfl (hdeclared.symm ▸ hlong)))) ?_
  simp [raiseError, emit, framerReset, LinkError.code]

/-- Settles O42: the first five bytes of the frame are its header. -/
theorem overlongFrameIsRejectedByItsReceiver : Obligations.OverlongFrameIsRejectedByItsReceiver := by
  intro id n payload s hs hlen hlong hoff
  have hw : (Instr.encode id n payload none).wellFormed s.params = true :=
    wellFormed_encode_iff.2 ⟨hlen, hoff.symm⟩
  refine ⟨_, exec_encode_success hw Bool.false_ne_true, ?_⟩
  rw [frameBytes_eq]
  exact runInstrs_overlongHeader id hs (hlen ▸ hlong)

end Sys2Proof.Machine
end

section
/-! An encoded frame decodes to itself (43_tx_encoder.md R175): at each of its bytes the framer holds what precedes the
byte, and accepts it. -/

namespace Sys2Proof.Machine

open Stated (emitted pacedBytes)

variable {id b : Byte} {n : Half} {payload done wire : List Byte} {s t : State} {o : Output}

/-! ### What is held of a frame, and what is ahead of it -/

/-- The framer holds the header of a frame and the bytes `done` of its payload. -/
def HoldsPayload (id : Byte) (n : Half) (done : List Byte) (s : State) : Prop :=
  s.rxId = some id ∧ s.rxLen = n ∧ bufReadFrom s.params s.rxBuf 0 s.rxIdx.toNat = .ok done ∧
    s.rxCrc = crc16Compute (coveredBytes id n done)

/-- The framer holds what precedes the bytes `wire` of the frame with this id, declared length and payload. -/
def FrameAhead (id : Byte) (n : Half) (payload wire : List Byte) (s : State) : Prop :=
  let rest := frameRest s.params (crc16Compute (coveredBytes id n payload))
  match s.rxState with
  | .awaitStart1 => wire = frameBytes s.params id n payload
  | .awaitStart2 =>
    wire = s.params.start2 :: id :: lowByte n :: highByte n :: rest payload ∧ s.rxIdx = 0 ∧ s.rxCrc = 0
  | .readId => wire = id :: lowByte n :: highByte n :: rest payload ∧ s.rxIdx = 0 ∧ s.rxCrc = 0
  | .readLenLow => wire = lowByte n :: highByte n :: rest payload ∧ s.rxIdx = 0 ∧ s.rxId = some id ∧
      s.rxCrc = crc16Compute [id]
  | .readLenHigh => wire = highByte n :: rest payload ∧ s.rxIdx = 0 ∧ s.rxId = some id ∧
      lowByte s.rxLen = lowByte n ∧ s.rxCrc = crc16Compute [id, lowByte n]
  | .readData => ∃ done left, payload = done ++ left ∧ left ≠ [] ∧ wire = rest left ∧ HoldsPayload id n done s
  | .readCrc => HoldsPayload id n payload s ∧
      if s.rxCrcPhase then
        wire = [highByte s.rxCrc, s.params.stop1, s.params.stop2] ∧ s.rxCrcLo = some (lowByte s.rxCrc)
      else wire = rest []
  | .readStop1 => wire = [s.params.stop1, s.params.stop2] ∧ HoldsPayload id n payload s
  | .readStop2 => wire = [s.params.stop2] ∧ HoldsPayload id n payload s

theorem frameAhead_readData (h : s.rxState = .readData) : FrameAhead id n payload wire s ↔
    ∃ done left, payload = done ++ left ∧ left ≠ [] ∧
      wire = frameRest s.params (crc16Compute (coveredBytes id n payload)) left ∧ HoldsPayload id n done s := by
  rw [FrameAhead, h]

theorem frameAhead_readCrc (h : s.rxState = .readCrc) : FrameAhead id n payload wire s ↔
    HoldsPayload id n payload s ∧
      if s.rxCrcPhase then
        wire = [highByte s.rxCrc, s.params.stop1, s.params.stop2] ∧ s.rxCrcLo = some (lowByte s.rxCrc)
      else wire = frameRest s.params (crc16Compute (coveredBytes id n payload)) [] := by
  rw [FrameAhead, h]

theorem HoldsPayload.length_eq (h : HoldsPayload id n done s) : done.length = s.rxIdx.toNat := by
  obtain ⟨-, -, hbuf, -⟩ := h
  exact (bufReadFrom_eq_ok.1 hbuf).1

theorem HoldsPayload.rxCrc_eq (h : HoldsPayload id n done s) : s.rxCrc = crc16Compute (coveredBytes id n done) := by
  obtain ⟨-, -, -, hcrc⟩ := h
  exact hcrc

/-- 41_rx_framer.md R131. -/
theorem HoldsPayload.store (h : HoldsPayload id n done s) (hi : s.rxIdx.toNat < s.params.rxCap.val) (b : Byte) :
    HoldsPayload id n (done ++ [b]) (payloadStored b s) := by
  obtain ⟨hid, hlen, hbuf, hcrc⟩ := h
  refine ⟨hid, hlen, ?_, ?_⟩
  · rw [← bufReadFrom_write_next b hi hbuf, ← rxIdx_succ_toNat hi]
    rfl
  · rw [coveredBytes_concat]
    exact crc16Upd_eq_compute_concat hcrc b

/-! ### The next byte is accepted -/

/-- The frame goes on: its next byte is answered by AwaitingMore, and the rest is ahead. -/
def FrameGoesOn (id : Byte) (n : Half) (payload wire : List Byte) (s : State) : Prop :=
  ∃ b rest t, wire = b :: rest ∧ RxRule b s t ∧ emitted s t rxAwaiting ∧ FrameAhead id n payload rest t

/-- R128, R129: the length's high byte ends the header. -/
theorem FrameAhead.headerEnds (h : FrameAhead id n payload wire s) (hs : s.rxState = .readLenHigh)
    (hn : payload.length = n.toNat) (hfit : payload.length ≤ s.params.rxCap.val) :
    FrameGoesOn id n payload wire s := by
  rw [FrameAhead, hs] at h
  obtain ⟨rfl, hidx, hid, hlow, hcrc⟩ := h
  have hL : declaredLength (highByte n) s.rxLen = n := declaredLength_highByte hlow
  have hcov : crc16Upd s.rxCrc (highByte n) = crc16Compute (coveredBytes id n []) :=
    crc16Upd_eq_compute_concat hcrc (highByte n)
  have hbuf : bufReadFrom s.params s.rxBuf 0 s.rxIdx.toNat = .ok [] := by rw [hidx]; rfl
  by_cases hnil : payload = []
  · subst hnil
    have h0 : n = 0 := BitVec.eq_of_toNat_eq hn.symm
    exact ⟨_, _, _, rfl, .emptyPayload hs (hL.trans h0), rfl, ⟨hid, h0.symm, hbuf, hcov⟩, rfl⟩
  · have hpos : 0 < n.toNat := hn ▸ List.length_pos_iff.2 hnil
    exact ⟨_, _, _, rfl, .header hs (by rw [hL, ← hn]; exact hfit) (by rw [hL]; exact hpos), rfl, [], payload, rfl,
      hnil, rfl, hid, hL, hbuf, hcov⟩

/-- R131: a byte of the payload, the last or another. -/
theorem FrameAhead.payloadByte (h : FrameAhead id n payload wire s) (hs : s.rxState = .readData)
    (hn : payload.length = n.toNat) (hfit : payload.length ≤ s.params.rxCap.val) :
    FrameGoesOn id n payload wire s := by
  obtain ⟨done, left, rfl, hleft, rfl, hheld⟩ := (frameAhead_readData hs).1 h
  obtain ⟨b, left, rfl⟩ := List.exists_cons_of_ne_nil hleft
  have hidx := hheld.length_eq
  rw [List.length_append, List.length_cons] at hn hfit
  have hi : s.rxIdx.toNat < s.params.rxCap.val := by omega
  have hstored := hheld.store hi b
  obtain ⟨-, hlen, -⟩ := hheld
  have hlast : s.rxIdx + 1 = s.rxLen ↔ left = [] := by
    rw [rxIdx_succ_eq_rxLen_iff hi, hlen, ← List.length_eq_zero_iff]
    omega
  by_cases hnil : left = []
  · subst hnil
    exact ⟨_, _, _, rfl, .lastPayloadByte hs hi (hlast.2 rfl), rfl, hstored, rfl⟩
  · refine ⟨_, _, _, rfl, .payloadByte hs hi (hlast.not.2 hnil), rfl, Iff.mpr (frameAhead_readData hs) ?_⟩
    exact ⟨done ++ [b], left, List.append_cons .., hnil, rfl, hstored⟩

/-- R132, R133: the CRC is the running one. -/
theorem FrameAhead.crcByte (h : FrameAhead id n payload wire s) (hs : s.rxState = .readCrc) :
    FrameGoesOn id n payload wire s := by
  obtain ⟨hheld, hwire⟩ := (frameAhead_readCrc hs).1 h
  rw [← hheld.rxCrc_eq] at hwire
  cases hp : s.rxCrcPhase <;> rw [hp] at hwire
  · cases hwire
    exact ⟨_, _, _, rfl, .crcLow hs hp, rfl, Iff.mpr (frameAhead_readCrc hs) ⟨hheld, rfl, rfl⟩⟩
  · obtain ⟨rfl, hlo⟩ := hwire
    exact ⟨_, _, _, rfl, .crcMatch hs hp _ hlo (receivedCrc_high_low _), rfl, rfl, hheld⟩

/-- The next byte is accepted: the frame goes on, or with its second stop marker it is complete. -/
theorem FrameAhead.next (h : FrameAhead id n payload wire s) (hn : payload.length = n.toNat)
    (hfit : payload.length ≤ s.params.rxCap.val) : FrameGoesOn id n payload wire s ∨
    ∃ b, wire = [b] ∧ RxRule b s
      (emit (.rxOut .frameComplete (some ⟨id, payload⟩) (dispatchOf s id payload)) (framerReset s)) := by
  have ha := h
  unfold FrameAhead at h
  cases hs : s.rxState <;> rw [hs] at h
  case readLenHigh => exact .inl (ha.headerEnds hs hn hfit)
  case readData => exact .inl (ha.payloadByte hs hn hfit)
  case readCrc => exact .inl (ha.crcByte hs)
  case awaitStart1 =>
    subst h
    exact .inl ⟨_, _, _, rfl, .startMarker hs rfl, rfl, rfl, rfl, rfl⟩
  case awaitStart2 =>
    obtain ⟨rfl, hheld⟩ := h
    exact .inl ⟨_, _, _, rfl, .secondMarker hs rfl, rfl, rfl, hheld⟩
  case readId =>
    obtain ⟨rfl, hidx, hcrc⟩ := h
    exact .inl ⟨_, _, _, rfl, .frameId hs, rfl, rfl, hidx, rfl, congrArg (crc16Upd · id) hcrc⟩
  case readLenLow =>
    obtain ⟨rfl, hidx, hid, hcrc⟩ := h
    exact .inl ⟨_, _, _, rfl, .lenLow hs, rfl, rfl, hidx, hid, lowByte_zeroExtend _,
      congrArg (crc16Upd · (lowByte n)) hcrc⟩
  case readStop1 =>
    obtain ⟨rfl, hheld⟩ := h
    exact .inl ⟨_, _, _, rfl, .stopMarker hs rfl, rfl, rfl, hheld⟩
  case readStop2 =>
    obtain ⟨rfl, hheld⟩ := h
    have hlen := hheld.length_eq
    obtain ⟨hid, hlen', hbuf, -⟩ := hheld
    exact .inr ⟨_, rfl, .frameComplete hs rfl id hid payload (by rw [hlen', ← hn, hlen]; exact hbuf)⟩

theorem FrameAhead.ne_nil (h : FrameAhead id n payload wire s) (hn : payload.length = n.toNat)
    (hfit : payload.length ≤ s.params.rxCap.val) : wire ≠ [] := by
  rcases h.next hn hfit with ⟨b, rest, -, hwire, -⟩ | ⟨b, hwire, -⟩ <;> exact hwire ▸ List.cons_ne_nil _ _

/-! ### The whole frame, with ticks between its bytes -/

/-- What a rule writes is of the framer, or an output. -/
theorem RxRule.framerReset_eq (hr : RxRule b s t) (outs : List Output) :
    framerReset { t with outputs := outs } = { framerReset s with outputs := outs } := by
  cases hr <;> rfl

theorem RxRule.dispatchOf_eq (hr : RxRule b s t) (id : Byte) (payload : List Byte) :
    dispatchOf t id payload = dispatchOf s id payload := by
  rw [dispatchOf, dispatchOf, hr.sameOutsideFramer.reg]

/-- What a frame leaves of a state: the framer reset, and `k` times AwaitingMore and then FrameComplete emitted. -/
def afterFrame (id : Byte) (payload : List Byte) (k : Nat) (s : State) : State :=
  { framerReset s with
    outputs := s.outputs ++ List.replicate k rxAwaiting ++
      [.rxOut .frameComplete (some ⟨id, payload⟩) (dispatchOf s id payload)] }

/-- A byte and the `k` ticks before it, all answered by AwaitingMore, count with the `m` answers that follow them. -/
theorem RxRule.afterFrame_eq (hr : RxRule b s t) (id : Byte) (payload : List Byte) (k m : Nat) :
    afterFrame id payload m { t with outputs := s.outputs ++ List.replicate k rxAwaiting ++ [rxAwaiting] } =
      afterFrame id payload (k + 1 + m) s := by
  rw [afterFrame, hr.framerReset_eq, List.append_assoc s.outputs, ← List.replicate_succ', List.append_assoc s.outputs,
    List.replicate_append_replicate, afterFrame, ← hr.dispatchOf_eq]
  rfl

/-- A byte after ticks too few to fire the timeout (41_rx_framer.md R145). -/
theorem RxRule.run_paced (hr : RxRule b s t) (he : emitted s t o) {k : Nat}
    (hquiet : s.rxState = .awaitStart1 ∨ s.tmoElapsed.toNat + k ≤ s.timeoutMs.toNat) (rest : List (Nat × Byte)) :
    runInstrs (pacedBytes ((k, b) :: rest)) s =
      runInstrs (pacedBytes rest) { t with outputs := s.outputs ++ List.replicate k rxAwaiting ++ [o] } := by
  obtain ⟨o', he', hrun⟩ := ticksBetweenBytesDoNotMatter s t k b hquiet hr.exec_eq
  cases emitted_unique he he'
  rw [← runInstrs_append hrun]
  simp [pacedBytes, ticksOps]

/-- By induction over the bytes ahead, each with the number of ticks before it. -/
theorem FrameAhead.run_paced {paced : List (Nat × Byte)} (h : FrameAhead id n payload (paced.map Prod.snd) s)
    (hn : payload.length = n.toNat) (hfit : payload.length ≤ s.params.rxCap.val)
    (hfirst : s.rxState = .awaitStart1 ∨ s.tmoElapsed = 0 ∧ ∀ g ∈ paced.map Prod.fst, g ≤ s.timeoutMs.toNat)
    (hlater : ∀ g ∈ (paced.map Prod.fst).tail, g ≤ s.timeoutMs.toNat) :
    runInstrs (pacedBytes paced) s =
      .next (afterFrame id payload ((paced.map Prod.fst).sum + (paced.length - 1)) s) := by
  induction paced generalizing s with
  | nil => exact absurd rfl (h.ne_nil hn hfit)
  | cons kb rest ih =>
    obtain ⟨k, b⟩ := kb
    have hquiet : s.rxState = .awaitStart1 ∨ s.tmoElapsed.toNat + k ≤ s.timeoutMs.toNat :=
      hfirst.imp_right fun ⟨h0, hle⟩ => by simpa [h0] using hle k (by simp)
    rcases h.next hn hfit with ⟨_, _, t, hwire, hr, he, hahead⟩ | ⟨_, hwire, hr⟩
    · cases hwire
      have hfit' : payload.length ≤ t.params.rxCap.val := by rwa [hr.params_eq]
      have hgaps : ∀ g ∈ rest.map Prod.fst, g ≤ t.timeoutMs.toNat := by
        rw [hr.sameOutsideFramer.timeoutMs]; exact hlater
      have hrest := ih (s := { t with outputs := s.outputs ++ List.replicate k rxAwaiting ++ [rxAwaiting] })
        hahead hfit' (.inr ⟨hr.tmoElapsed_eq, hgaps⟩) fun g hg => hgaps g (List.mem_of_mem_tail hg)
      rw [hr.run_paced he hquiet, hrest, hr.afterFrame_eq]
      have hpos : 0 < rest.length := List.length_pos_iff.2 fun hnil => hahead.ne_nil hn hfit' (by rw [hnil]; rfl)
      congr 2
      simp only [List.map_cons, List.sum_cons, List.length_cons]
      omega
    · obtain ⟨rfl, hnil⟩ := List.cons.inj hwire
      cases List.map_eq_nil_iff.1 hnil
      rw [hr.run_paced rfl hquiet]
      rfl

/-! ### The statement -/

/-- A successful `ENCODE` is well formed, and what it emits is the frame. -/
theorem frameBytes_of_exec_encode {space : Option Nat} {bytes : List Byte}
    (h : exec (.encode id n payload space) s = .next t) (he : emitted s t (.txOut .success bytes)) :
    payload.length = n.toNat ∧ bytes = frameBytes s.params id n payload := by
  cases h
  rcases afterEncode_output id n payload space s with ⟨-, hsame⟩ | ⟨hw, he'⟩
  · exact absurd (he.symm.trans hsame) (by simp)
  · refine ⟨(wellFormed_encode_iff.1 hw).1, ?_⟩
    have ho := emitted_unique he he'
    by_cases hshort : spaceShort s.params n space = true
    · rw [encodeOutput_of_spaceShort hshort] at ho; cases ho
    · rw [encodeOutput_of_not_spaceShort hshort] at ho; cases ho; rfl

/-- Settles O44: at first the whole frame is ahead. -/
theorem encodedFrameDecodes : Obligations.EncodedFrameDecodes := by
  intro id n payload bytes space s₀ t₀ s gaps henc hemit hparams hfit hs hlen hgaps
  obtain ⟨hn, hbytes⟩ := frameBytes_of_exec_encode henc hemit
  rw [← hparams] at hbytes
  have hsnd : (gaps.zip bytes).map Prod.snd = bytes := List.map_snd_zip hlen.ge
  have hfst : (gaps.zip bytes).map Prod.fst = gaps := List.map_fst_zip hlen.le
  have hahead : FrameAhead id n payload ((gaps.zip bytes).map Prod.snd) s := by
    rw [hsnd, FrameAhead, hs]
    exact hbytes
  have hcount : (gaps.zip bytes).length - 1 = 8 + payload.length := by
    rw [← List.length_map (f := Prod.snd), hsnd, hbytes, frameBytes_length]
    omega
  have hrun := hahead.run_paced hn hfit (.inl hs) (by rwa [hfst])
  rwa [hfst, hcount] at hrun

end Sys2Proof.Machine
end

section
/-! The control operations `CFG_TIMEOUT` and `RESET` (44_control.md R180, R181) and their words. -/

namespace Sys2Proof.Machine

open Stated (opNibble)

variable {t : Half} {s : State}

/-! ### `CFG_TIMEOUT` (R180) -/

theorem exec_cfgTimeout (t : Half) (s : State) :
    exec (.cfgTimeout t) s = .next { s with timeoutMs := t, outputs := s.outputs ++ [.ack] } := rfl

/-- In a frame a limit below the next count lets the next tick fire. -/
theorem runInstrs_cfgTimeout_tick_fires (hs : s.rxState ≠ .awaitStart1) (hlt : t.toNat < s.tmoElapsed.toNat + 1) :
    runInstrs [.cfgTimeout t, .tick] s = .next { framerReset s with
      timeoutMs := t, outputs := s.outputs ++ [.ack, .rxOut .timeout none none] } := by
  rw [List.append_cons, runInstrs_cons (exec_cfgTimeout t s)]
  exact runInstrs_cons (exec_tick_fires hs hlt)

/-- In a frame a limit not below the next count lets the next tick count. -/
theorem runInstrs_cfgTimeout_tick_counts (hs : s.rxState ≠ .awaitStart1)
    (hle : s.tmoElapsed.toNat + 1 ≤ t.toNat) :
    runInstrs [.cfgTimeout t, .tick] s = .next { s with
      timeoutMs := t, tmoElapsed := s.tmoElapsed + 1, outputs := s.outputs ++ [.ack, rxAwaiting] } := by
  rw [List.append_cons, runInstrs_cons (exec_cfgTimeout t s)]
  exact runInstrs_cons (exec_tick_counts hs hle)

/-- Settles O46: the tick compares its count with the limit written just before, and a limit of 0 is below every
count. -/
theorem cfgTimeoutResult : Obligations.CfgTimeoutResult := by
  refine ⟨exec_cfgTimeout, fun _ h => (TableRow.cfgTimeout h).decode_by_reserved, fun t s hs => ⟨fun ht => ?_, ?_⟩⟩
  · refine runInstrs_cfgTimeout_tick_fires hs ?_
    rcases ht with hlt | rfl
    · exact Nat.lt_succ_of_lt hlt
    · exact Nat.succ_pos _
  · rw [ofNat_toNat_succ]
    exact runInstrs_cfgTimeout_tick_counts hs

/-! ### `RESET` (R181) -/

theorem exec_reset (s : State) : exec .reset s = .next { framerReset s with
    timeoutMs := s.params.timeoutReset, reg := [], crcAcc := 0x0000, outputs := s.outputs ++ [.ack] } := rfl

/-- The state at power-on but for the refusal mark and the model's own fields (70_reset_and_hazards.md R230). -/
theorem exec_reset_powerOn (s : State) : exec .reset s = .next { State.powerOn s.params with
    refused := s.refused, lastRefusal := s.lastRefusal, ops := s.ops, outputs := s.outputs ++ [.ack] } := rfl

theorem decode_resetWord {op : Op} (h : opNibble op = 0xF) :
    (op.word ≠ 0xF0000000 → decode op = .error .reservedBits) ∧ (op.word = 0xF0000000 → decode op = .ok .reset) := by
  have hword : op.word.toNat / 2 ^ 0 % 2 ^ 28 = 0 ↔ op.word = 0xF0000000 := bareWord_reserved_eq_zero_iff h
  rw [Ne, ← hword]
  exact (TableRow.reset h).decode_by_reserved

/-- Settles O47: the reset framer and the three fields outside it are those of power-on, and the registry lists no
entry. -/
theorem resetResult : Obligations.ResetResult :=
  ⟨fun s => ⟨exec_reset s, exec_reset_powerOn s⟩, fun id => ⟨rfl, regTag_nil id⟩, fun _ => decode_resetWord⟩

end Sys2Proof.Machine
end

section
/-! Refusals and link-level errors (60_exceptions.md R200 to R209): what each leaves, and what alone can raise it. -/

namespace Sys2Proof.Machine

open Stated (emitted)

variable {b : Byte} {c : RxCode} {d : Option Dispatched} {f : Option Frame} {i : Instr} {s t : State}

/-! ### Refusals (R206) -/

theorem exec_encode_of_refusal {id : Byte} {n : Half} {payload : List Byte} {space : Option Nat} {r : RefuseReason}
    (h : encodeRefusal s.params n payload space = some r) :
    exec (.encode id n payload space) s = .next (refuse r s) := by
  change execEncode id n payload space s = _
  simp only [execEncode, afterEncode, h]

/-- 30_encoding.md R78. -/
theorem encodeRefusal_of_space_ne {p : Params} {n : Half} {payload : List Byte} {space : Option Nat}
    (hlen : payload.length = n.toNat) (h : space.isSome ≠ p.txSpaceCheck) :
    encodeRefusal p n payload space = some .spaceOperandMissing :=
  (if_neg (not_not.2 hlen)).trans (if_pos h)

/-- Settles O8: the decoder's refusals are those of `step`, and the two of `ENCODE` are the two checks of its side
operands. -/
theorem refusedOperationOnlySetsTheMark : Obligations.RefusedOperationOnlySetsTheMark :=
  fun _ => ⟨fun _ _ _ h hd => step_of_decode_error h hd, fun _ _ _ _ h => exec_encode_of_length_ne h,
    fun _ _ _ _ hlen h => exec_encode_of_refusal (encodeRefusal_of_space_ne hlen h)⟩

/-! ### The error path (R200, 41_rx_framer.md R121) -/

/-- Settles O23: the reset and the error path are definitions, and the cleared buffer lists no cell. -/
theorem framerResetAndErrorPath : Obligations.FramerResetAndErrorPath :=
  ⟨fun _ => rfl, fun _ a => Memory.read_nil a, fun _ => ⟨rfl, rfl, rfl, rfl⟩, rfl, rfl, rfl, rfl⟩

/-! ### Who raises which error (R202 to R205) -/

/-- The operation, state and condition R202 to R205 give for an error result; the other results are no error. -/
def ErrorCondition (i : Instr) (s : State) : RxCode → Prop
  | .badLength => ∃ b, i = .rxByte b ∧ s.rxState = .readLenHigh ∧
      s.params.rxCap.val < b.toNat * 256 + s.rxLen.toNat % 256
  | .crcMismatch => ∃ b lo, i = .rxByte b ∧ s.rxState = .readCrc ∧ s.rxCrcPhase = true ∧ s.rxCrcLo = some lo ∧
      b.toNat * 256 + lo.toNat ≠ s.rxCrc.toNat
  | .badStopByte => ∃ b, i = .rxByte b ∧ ((s.rxState = .readStop1 ∧ b ≠ s.params.stop1) ∨
      (s.rxState = .readStop2 ∧ b ≠ s.params.stop2))
  | .timeout => i = .tick ∧ s.rxState ≠ .awaitStart1 ∧ s.timeoutMs.toNat < s.tmoElapsed.toNat + 1
  | .awaitingMore | .frameComplete => True

/-- The rules that emit an error carry its condition; all others emit AwaitingMore or FrameComplete. -/
theorem RxRule.errorCondition (hr : RxRule b s t) (he : emitted s t (.rxOut c f d)) :
    ErrorCondition (.rxByte b) s c := by
  cases hr with
  | badLength h hl =>
    cases emitted_unique he rfl
    rw [declaredLength_toNat] at hl
    exact ⟨b, rfl, h, hl⟩
  | crcMismatch h hp lo hlo hc =>
    cases emitted_unique he rfl
    exact ⟨b, lo, rfl, h, hp, hlo, mt receivedCrc_eq_iff.2 hc⟩
  | badStop1 h hb => cases emitted_unique he rfl; exact ⟨b, rfl, .inl ⟨h, hb⟩⟩
  | badStop2 h hb => cases emitted_unique he rfl; exact ⟨b, rfl, .inr ⟨h, hb⟩⟩
  | _ => cases emitted_unique he rfl; trivial

theorem execTick_errorCondition (h : execTick s = .next t) (he : emitted s t (.rxOut c f d)) :
    ErrorCondition .tick s c := by
  rcases execTick_cases s with ⟨-, e⟩ | ⟨-, -, e⟩ | ⟨hs, hlt, e⟩ <;> rw [e] at h <;> cases h <;>
    cases emitted_unique he rfl
  · trivial
  · trivial
  · exact ⟨rfl, hs, hlt⟩

/-- Only `RX_BYTE` and `TICK` emit a receive result (30_encoding.md R81). -/
theorem exec_errorCondition (h : exec i s = .next t) (he : emitted s t (.rxOut c f d)) : ErrorCondition i s c := by
  rcases receiveResultsAndTheirSources.2 i s t c f d h he with ⟨b, rfl, -⟩ | ⟨rfl, -⟩
  · exact (execRxByte_rule h).errorCondition he
  · exact execTick_errorCondition h he

/-! ### How the stop states are entered (R203, R204) -/

/-- Every other operation keeps `rx_state` or resets the framer. -/
theorem exec_rxByte_of_advance (h : exec i s = .next t) (hmove : t.rxState ≠ s.rxState)
    (hframe : t.rxState ≠ .awaitStart1) : ∃ b, i = .rxByte b := by
  cases i with
  | rxByte b => exact ⟨b, rfl⟩
  | tick =>
    rcases execTick_cases s with ⟨-, e⟩ | ⟨-, -, e⟩ | ⟨-, -, e⟩ <;> cases e.symm.trans h
    · exact absurd rfl hmove
    · exact absurd rfl hmove
    · exact absurd rfl hframe
  | reset => cases h; exact absurd rfl hframe
  | encode | crcInit | crcFeed | crcUpdate | regSet | cfgTimeout =>
    obtain ⟨hsame, -⟩ := exec_sameFramer h nofun nofun nofun
    exact absurd hsame hmove

theorem RxRule.crcMatch_of_readStop1 (hr : RxRule b s t) (ht : t.rxState = .readStop1) (hs : s.rxState ≠ .readStop1) :
    ∃ lo, s.rxState = .readCrc ∧ s.rxCrcPhase = true ∧ s.rxCrcLo = some lo ∧ receivedCrc b lo = s.rxCrc := by
  cases hr with
  | crcMatch h hp lo hlo hc => exact ⟨lo, h, hp, hlo, hc⟩
  | ignored | payloadByte | crcLow => exact absurd ht hs
  | _ => cases ht

theorem RxRule.stopMarker_of_readStop2 (hr : RxRule b s t) (ht : t.rxState = .readStop2)
    (hs : s.rxState ≠ .readStop2) : s.rxState = .readStop1 ∧ b = s.params.stop1 := by
  cases hr with
  | stopMarker h hb => exact ⟨h, hb⟩
  | ignored | payloadByte | crcLow => exact absurd ht hs
  | _ => cases ht

/-- Settles O35: an error result carries its condition, and of the rules of `RX_BYTE` one alone enters each stop
state. -/
theorem errorsAreRaisedOnlyByTheirRules : Obligations.ErrorsAreRaisedOnlyByTheirRules := by
  refine ⟨fun i s t f d h => ⟨exec_errorCondition h, exec_errorCondition h, exec_errorCondition h,
    exec_errorCondition h⟩, fun i s t h => ⟨fun ht hs => ?stop1, fun ht hs => ?stop2⟩⟩
  case stop1 =>
    obtain ⟨b, rfl⟩ := exec_rxByte_of_advance h (ht ▸ hs.symm) (ht ▸ nofun)
    obtain ⟨lo, hcrc, hphase, hlo, hmatch⟩ := (execRxByte_rule h).crcMatch_of_readStop1 ht hs
    exact ⟨b, lo, rfl, hcrc, hphase, hlo, receivedCrc_eq_iff.1 hmatch⟩
  case stop2 =>
    obtain ⟨b, rfl⟩ := exec_rxByte_of_advance h (ht ▸ hs.symm) (ht ▸ nofun)
    obtain ⟨hstop1, rfl⟩ := (execRxByte_rule h).stopMarker_of_readStop2 ht hs
    exact ⟨hstop1, rfl⟩

/-! ### A firing tick and a byte (R209, 70_reset_and_hazards.md R238) -/

/-- The byte after an error is read by the reset framer. -/
theorem exec_rxByte_raiseError (k : LinkError) (b : Byte) (s : State) : exec (.rxByte b) (raiseError k s) = .next
    { framerReset s with
      rxState := if b = s.params.start1 then .awaitStart2 else .awaitStart1
      outputs := s.outputs ++ [.rxOut k.code none none, rxAwaiting] } := by
  rw [List.append_cons]
  exact exec_rxByte_framerReset b { s with outputs := s.outputs ++ [.rxOut k.code none none] }

/-- The first tick after a byte fires only where the limit is 0. -/
theorem exec_tick_of_elapsed_zero (h0 : s.tmoElapsed = 0) (hpos : 0 < s.timeoutMs.toNat) : exec .tick s = .next
    { s with tmoElapsed := if s.rxState = .awaitStart1 then 0 else 1, outputs := s.outputs ++ [rxAwaiting] } := by
  split
  · next hs => rw [← h0]; exact exec_tick_idle hs
  · next hs =>
    have hle : s.tmoElapsed.toNat + 1 ≤ s.timeoutMs.toNat := by rw [h0]; exact hpos
    rw [exec_tick_counts hs hle, h0]
    rfl

/-- Settles O37: the tick that fires resets the framer, and the byte clears the count. -/
theorem tickAndByteInEitherOrder : Obligations.TickAndByteInEitherOrder := by
  intro s t b hs hlt hpos h
  have hr : RxRule b s t := execRxByte_rule h
  have hpos' : 0 < t.timeoutMs.toNat := by rwa [hr.sameOutsideFramer.timeoutMs]
  rw [runInstrs_cons (exec_tick_fires hs hlt), runInstrs_cons (exec_rxByte_raiseError .timeout b s),
    runInstrs_cons h, runInstrs_cons (exec_tick_of_elapsed_zero hr.tmoElapsed_eq hpos')]
  exact ⟨rfl, rfl⟩

end Sys2Proof.Machine
end
